-- ==== Sys2Proof/Word.lean ====
section
/-! DEFINITION. The words of PDES: a byte of the stream and the 32-bit quantities (spec/00_scope.md R8, R10).
All arithmetic on them is `BitVec` arithmetic: modulo 2^8 on ring indices, modulo 2^32 on counters and on the
countdown, which is compared as signed (R10). -/

namespace Sys2Proof

/-- A byte of the input stream, of a wire structure or of a register value (R8). -/
abbrev Byte := BitVec 8

/-- A 32-bit quantity: `magic`, `eventCount`, `frameNumber`, `delayCycles`, a counter, the countdown (R4). -/
abbrev Word := BitVec 32

/-- A slot index of the ring buffer, `IDXW = 8` bits (R4, R56). -/
abbrev SlotIndex := BitVec 8

end Sys2Proof
end

