-- ==== Sys2Proof/Config.lean ====
section
/-! DEFINITION. The parameters of PDES (spec/00_scope.md R4): the fixed sizes, and the two the spec leaves OPEN, the
magic word (D1) and the arbitration order (D4). An open parameter has no body here, so no proof can rest on a value. -/

namespace Sys2Proof

/-- The parameter `ARB` (R4, spec/20_memory.md R59): the order of a producer and a consumer operation requested in
the same step. -/
inductive Arb where
  /-- The producer's operation runs first. -/
  | producerFirst
  /-- The consumer's operation runs first. -/
  | consumerFirst
  /-- Either order may occur: the default. -/
  | any
deriving DecidableEq, Repr

namespace Config

/-- `C`, the number of slots of the ring buffer (R4). At most `C - 1` events are live at once. -/
def slots : Nat := 256

/-- `HDR_LEN`, the bytes of a FrameHeader (R4). -/
def headerLength : Nat := 12

/-- `EVT_LEN`, the bytes of a WireEvent (R4). -/
def eventLength : Nat := 8

/-- `CHIP_OK`, the one supported chip id (R4). -/
def supportedChip : Byte := 0

/-- The magic word the block was built with. DESIGN CHOICE (log 1), safe: the spec gives no value (D1), so it has no
body; it is only what `State.reset` puts into the field `magic`. -/
opaque magic : Word

/-- `MAGIC_T`, the stand-in of the spec's own test vectors (D23). It is NOT the hardware's value and no default: it
serves tests, and the host's table words (log 20). -/
def magicT : Word := 0x31444953

/-- Which order the `k`-th simultaneous pair takes under `Arb.any`: `true` is producer first. DESIGN CHOICE (log 2),
safe: a free value without a body. -/
opaque producerFirstAt : Nat → Bool

end Config

end Sys2Proof
end

