-- ==== Sys2Proof/Syntax.lean ====
section
/-! DEFINITION. The syntax of PDES: the decoder's stage, the event record, and `Instr`, one constructor per row of
spec/opcode_table.json (spec/30_encoding.md R87). The five wire rows keep every field of the wire structure, the
ignored ones too, so that nothing the stream carries is lost before the meaning drops it. -/

namespace Sys2Proof

/-- The decoder's control state (spec/10_state.md R21). -/
inductive Stage where
  /-- Bytes are header candidates. Status value 0. -/
  | seekingHeader
  /-- Bytes are event bytes. Status value 1. -/
  | readingEvents
deriving DecidableEq, Repr

/-- A RegisterWriteEvent, the 45-bit record the ring buffer holds (R30). -/
structure RegisterWriteEvent where
  register : BitVec 5
  value : Byte
  delayCycles : Word
deriving DecidableEq, Repr

/-- One constructor per row of spec/opcode_table.json. -/
inductive Instr where
  /-- `HDR` (R102): a 12-byte window whose first word is `MAGIC`. -/
  | hdr (eventCount frameNumber : Word)
  /-- `SLIDE` (R103): a 12-byte window whose first word is not `MAGIC`. -/
  | slide (word eventCount frameNumber : Word)
  /-- `EVT_WRITE` (R108): an event of the supported chip in a frame not skipping. -/
  | evtWrite (address value pad : Byte) (delay : Word)
  /-- `EVT_UNSUP` (R107): an event of another chip in a frame not skipping. -/
  | evtUnsup (chipId address value pad : Byte) (delay : Word)
  /-- `EVT_SKIP` (R109): any event in a skipping frame. -/
  | evtSkip (chipId address value pad : Byte) (delay : Word)
  /-- `FEED b` (R100): one byte of the stream. -/
  | feed (b : Byte)
  /-- `ENQ a, v, d` (R160): the host's enqueue-register-write. -/
  | enq (a v : Byte) (d : Word)
  /-- `DRESET` (R112): the decoder's reset. -/
  | dreset
  /-- `QCLEAR` (R140): the queue's clear. -/
  | qclear
  /-- `APPLY n` (R134): the consumer's applyDue. -/
  | apply (n : Word)
  /-- `RESET` (R211): the hardware reset. -/
  | reset
  /-- `PUSH ev` (R130): a micro-operation, inside FEED and ENQ; it has no encoding. -/
  | push (ev : RegisterWriteEvent)
  /-- `FRAMERESET` (R111): a micro-operation, inside FEED, DRESET and RESET; it has no encoding. -/
  | frameReset
deriving DecidableEq, Repr

end Sys2Proof
end

