-- ==== Sys2Proof/WellFormed.lean ====
section
/-! DEFINITION. Which terms of `Instr` the encoding can produce. Two rows of spec/opcode_table.json are selected by a
field NOT having a value (`"negate": true`, spec/30_encoding.md R87): a SLIDE window's first word is not `MAGIC`
(R79), an EVT_UNSUP event's chip id is not 0 (R107). Every other field takes every value. -/

namespace Sys2Proof

/-- Is this a term the encoding can produce, for the magic word the block was built with? -/
def Instr.wellFormed (magic : Word) : Instr → Bool
  | .hdr _ _ => true
  | .slide word _ _ => word != magic
  | .evtWrite _ _ _ _ => true
  | .evtUnsup chipId _ _ _ _ => chipId != Config.supportedChip
  | .evtSkip _ _ _ _ _ => true
  | .feed _ => true
  | .enq _ _ _ => true
  | .dreset => true
  | .qclear => true
  | .apply _ => true
  | .reset => true
  | .push _ => true
  | .frameReset => true

end Sys2Proof
end

