-- ==== Sys2Proof/Decode.lean ====
section
/-! DEFINITION. Decoding and encoding, from the tables of spec/30_encoding.md (R72, R73, R82, R83, R87): the
little-endian reading of bytes, the wire words `H` and `E`, the command words of the ports, the decoder that selects a
row of spec/opcode_table.json from them, and after it the encoder. -/

namespace Sys2Proof

/-! ## Bytes and words -/

/-- `LE32(b0, b1, b2, b3)`: the byte that arrives first is the least significant (R51). -/
def le32 (b0 b1 b2 b3 : Byte) : Word := b3 ++ b2 ++ b1 ++ b0

/-- The low five bits of a wire address: `register = address[4:0]`, bits 7:5 are dropped without a check (R75). -/
def registerOf (address : Byte) : BitVec 5 := address.extractLsb' 0 5

/-- The 96-bit word `H` of a header window, byte `k` in bits `8k+7:8k` (R72). -/
def headerWord (b : Vector Byte 12) : BitVec 96 :=
  le32 b[8] b[9] b[10] b[11] ++ le32 b[4] b[5] b[6] b[7] ++ le32 b[0] b[1] b[2] b[3]

/-- The 64-bit word `E` of an event, byte `k` in bits `8k+7:8k` (R73). -/
def eventWord (b : Vector Byte 8) : BitVec 64 :=
  le32 b[4] b[5] b[6] b[7] ++ le32 b[0] b[1] b[2] b[3]

/-- The four bytes of a 32-bit field in arrival order (R51, R86). -/
def wordBytes (w : Word) : List Byte :=
  [w.extractLsb' 0 8, w.extractLsb' 8 8, w.extractLsb' 16 8, w.extractLsb' 24 8]

/-- The 12 bytes of a header word in arrival order. -/
def headerBytes (h : BitVec 96) : List Byte :=
  wordBytes (h.extractLsb' 0 32) ++ wordBytes (h.extractLsb' 32 32) ++ wordBytes (h.extractLsb' 64 32)

/-- The 8 bytes of an event word in arrival order. -/
def eventBytes (e : BitVec 64) : List Byte :=
  wordBytes (e.extractLsb' 0 32) ++ wordBytes (e.extractLsb' 32 32)

/-! ## What is presented to a decoder, and why one rejects -/

/-- A word where the spec's five formats have one: the two wire structures, the two command ports, the reset input. -/
inductive Presented where
  /-- The 12-byte window in stage SeekingHeader, as the word `H` (R72). -/
  | header (h : BitVec 96)
  /-- The 8 bytes of an event in stage ReadingEvents, as the word `E` (R73). -/
  | event (e : BitVec 64)
  /-- `p_cmd` with `p_valid = 1` (R82). -/
  | producer (c : BitVec 50)
  /-- `c_cycles` with `c_valid = 1` (R83). -/
  | consumer (n : Word)
  /-- The reset input `rst` (R83). -/
  | resetInput (rst : BitVec 1)
deriving DecidableEq, Repr

/-- Why a decoder gives no instruction. No presented wire or command word is ever rejected (R79, R82). -/
inductive Reject where
  /-- `rst` is 0: no operation is requested (R83). -/
  | resetNotAsserted
  /-- The window does not hold the 12 (or 8) bytes its stage examines (R77, R105). -/
  | windowIncomplete
  /-- The host's table word has a bit above the format's width. -/
  | outsideFormat
  /-- No row of the table has this width (the two micro-operations have no encoding, R87). -/
  | noSuchFormat
deriving DecidableEq, Repr

/-! ## The wire structures -/

/-- What a full header window is (R102, R103). -/
inductive HeaderWindow where
  /-- Its first word is `MAGIC`. -/
  | accepted (eventCount frameNumber : Word)
  /-- Its first word is not. -/
  | mismatch (word eventCount frameNumber : Word)
deriving DecidableEq, Repr

/-- What a complete event is (R106). -/
inductive EventWindow where
  /-- Chip 0, frame not skipping (R108). -/
  | write (address value pad : Byte) (delay : Word)
  /-- Another chip, frame not skipping (R107). -/
  | unsupported (chipId address value pad : Byte) (delay : Word)
  /-- The frame is skipping: no field is examined (R109). -/
  | skipped (chipId address value pad : Byte) (delay : Word)
deriving DecidableEq, Repr

/-- A header is recognised by its first four bytes alone; the other eight are accepted whatever they are (R77). -/
def classifyHeader (magic : Word) (h : BitVec 96) : HeaderWindow :=
  if h.extractLsb' 0 32 = magic then
    .accepted (h.extractLsb' 32 32) (h.extractLsb' 64 32)
  else
    .mismatch (h.extractLsb' 0 32) (h.extractLsb' 32 32) (h.extractLsb' 64 32)

/-- `skippingFrame` is tested first, then `chipId` (R106). -/
def classifyEvent (skipping : Bool) (e : BitVec 64) : EventWindow :=
  let chipId := e.extractLsb' 0 8
  let address := e.extractLsb' 8 8
  let value := e.extractLsb' 16 8
  let pad := e.extractLsb' 24 8
  let delay := e.extractLsb' 32 32
  if skipping then .skipped chipId address value pad delay
  else if chipId = Config.supportedChip then .write address value pad delay
  else .unsupported chipId address value pad delay

/-- The row of the table a header window is. -/
def HeaderWindow.instr : HeaderWindow → Instr
  | .accepted eventCount frameNumber => .hdr eventCount frameNumber
  | .mismatch word eventCount frameNumber => .slide word eventCount frameNumber

/-- The row of the table an event is. -/
def EventWindow.instr : EventWindow → Instr
  | .write address value pad delay => .evtWrite address value pad delay
  | .unsupported chipId address value pad delay => .evtUnsup chipId address value pad delay
  | .skipped chipId address value pad delay => .evtSkip chipId address value pad delay

/-- The wire decoder on a 12-byte window. -/
def decodeHeader (magic : Word) (h : BitVec 96) : Instr := (classifyHeader magic h).instr

/-- The wire decoder on an 8-byte event. -/
def decodeEvent (skipping : Bool) (e : BitVec 64) : Instr := (classifyEvent skipping e).instr

/-! ## The command ports -/

/-- The producer port's command word: `op` in bits 49:48, `a` 47:40, `v` 39:32, `d` 31:0; all four codes are defined
and unused fields are ignored (R82). -/
def decodeProducer (c : BitVec 50) : Instr :=
  let a := c.extractLsb' 40 8
  let v := c.extractLsb' 32 8
  let d := c.extractLsb' 0 32
  if c.extractLsb' 48 2 = 0b00#2 then .feed v
  else if c.extractLsb' 48 2 = 0b01#2 then .enq a v d
  else if c.extractLsb' 48 2 = 0b10#2 then .dreset
  else .qclear

/-- The consumer port has one operation and no opcode field (R83). -/
def decodeConsumer (n : Word) : Instr := .apply n

/-- The reset input (R83). -/
def decodeReset (rst : BitVec 1) : Except Reject Instr :=
  if rst = 1#1 then .ok .reset else .error .resetNotAsserted

/-- The whole decoder. `magic` is the block's magic word and `skipping` its `skippingFrame` flag: the wire rows are
selected by decoder state as well as by bits (R87). -/
def decode (magic : Word) (skipping : Bool) : Presented → Except Reject Instr
  | .header h => .ok (decodeHeader magic h)
  | .event e => .ok (decodeEvent skipping e)
  | .producer c => .ok (decodeProducer c)
  | .consumer n => .ok (decodeConsumer n)
  | .resetInput rst => decodeReset rst

/-- The wire decoder on any bytes held in a stage: only 12 header bytes, or 8 event bytes, are ever examined. -/
def decodeBytes (magic : Word) (stage : Stage) (skipping : Bool) (bytes : List Byte) : Except Reject Instr :=
  match stage, bytes with
  | .seekingHeader, [b0, b1, b2, b3, b4, b5, b6, b7, b8, b9, b10, b11] =>
    .ok (decodeHeader magic (headerWord #v[b0, b1, b2, b3, b4, b5, b6, b7, b8, b9, b10, b11]))
  | .readingEvents, [b0, b1, b2, b3, b4, b5, b6, b7] =>
    .ok (decodeEvent skipping (eventWord #v[b0, b1, b2, b3, b4, b5, b6, b7]))
  | .seekingHeader, _ => .error .windowIncomplete
  | .readingEvents, _ => .error .windowIncomplete

/-! ## The host's table words -/

/-- What the host's word of a table row presents, by the row's width in whole bytes. -/
def presentTableWord (nbits w : Nat) : Except Reject Presented :=
  if nbits = 96 then
    if w < 2 ^ 96 then .ok (.header (BitVec.ofNat 96 w)) else .error .outsideFormat
  else if nbits = 64 then
    if w < 2 ^ 64 then .ok (.event (BitVec.ofNat 64 w)) else .error .outsideFormat
  else if nbits = 56 then
    if w < 2 ^ 50 then .ok (.producer (BitVec.ofNat 50 w)) else .error .outsideFormat
  else if nbits = 32 then
    if w < 2 ^ 32 then .ok (.consumer (BitVec.ofNat 32 w)) else .error .outsideFormat
  else if nbits = 8 then
    if w < 2 ^ 1 then .ok (.resetInput (BitVec.ofNat 1 w)) else .error .outsideFormat
  else .error .noSuchFormat

/-- The decoder on the host's word of a table row. A 96-bit word is read with the stand-in `MAGIC_T` (the table's own
`match_with_MAGIC_T`) and a 64-bit word in a frame that is not skipping: DESIGN CHOICE (log 20). -/
def decodeTable (nbits w : Nat) : Except Reject Instr :=
  (presentTableWord nbits w).bind (decode Config.magicT false)

/-- The decoder on the host's word of a table row, without the reason it rejects. -/
def decodeTableWord (nbits w : Nat) : Option Instr :=
  match decodeTable nbits w with
  | .ok i => some i
  | .error _ => none

/-! ## The encoder -/

/-- The 96-bit word of a header with these fields (R72). -/
def encodeHeader (word eventCount frameNumber : Word) : BitVec 96 := frameNumber ++ eventCount ++ word

/-- The 64-bit word of an event with these fields (R73). -/
def encodeEvent (chipId address value pad : Byte) (delay : Word) : BitVec 64 :=
  delay ++ pad ++ value ++ address ++ chipId

/-- The command word with these fields (R82). -/
def encodeCommand (op : BitVec 2) (a v : Byte) (d : Word) : BitVec 50 := op ++ a ++ v ++ d

/-- The word of an instruction, ignored fields of a command 0; the two micro-operations have none (R87). -/
def encode (magic : Word) : Instr → Option Presented
  | .hdr eventCount frameNumber => some (.header (encodeHeader magic eventCount frameNumber))
  | .slide word eventCount frameNumber => some (.header (encodeHeader word eventCount frameNumber))
  | .evtWrite address value pad delay =>
    some (.event (encodeEvent Config.supportedChip address value pad delay))
  | .evtUnsup chipId address value pad delay => some (.event (encodeEvent chipId address value pad delay))
  | .evtSkip chipId address value pad delay => some (.event (encodeEvent chipId address value pad delay))
  | .feed b => some (.producer (encodeCommand 0b00#2 0 b 0))
  | .enq a v d => some (.producer (encodeCommand 0b01#2 a v d))
  | .dreset => some (.producer (encodeCommand 0b10#2 0 0 0))
  | .qclear => some (.producer (encodeCommand 0b11#2 0 0 0))
  | .apply n => some (.consumer n)
  | .reset => some (.resetInput 1#1)
  | .push _ => none
  | .frameReset => none

/-- The value of `skippingFrame` in the table's `context` of a row: EVT_SKIP is the reading of a skipping frame. For
every other row it is 0 or plays no part. -/
def Instr.readWhenSkipping : Instr → Bool
  | .hdr _ _ => false
  | .slide _ _ _ => false
  | .evtWrite _ _ _ _ => false
  | .evtUnsup _ _ _ _ _ => false
  | .evtSkip _ _ _ _ _ => true
  | .feed _ => false
  | .enq _ _ _ => false
  | .dreset => false
  | .qclear => false
  | .apply _ => false
  | .reset => false
  | .push _ => false
  | .frameReset => false

/-- The width of a row's format in the table, `width`. -/
def Instr.tableWidth : Instr → Nat
  | .hdr _ _ => 96
  | .slide _ _ _ => 96
  | .evtWrite _ _ _ _ => 64
  | .evtUnsup _ _ _ _ _ => 64
  | .evtSkip _ _ _ _ _ => 64
  | .feed _ => 50
  | .enq _ _ _ => 50
  | .dreset => 50
  | .qclear => 50
  | .apply _ => 32
  | .reset => 1
  | .push _ => 0
  | .frameReset => 0

/-- The width of a presented word. -/
def Presented.width : Presented → Nat
  | .header _ => 96
  | .event _ => 64
  | .producer _ => 50
  | .consumer _ => 32
  | .resetInput _ => 1

end Sys2Proof
end

