-- ==== Sys2Proof/Machine/State.lean ====
section
/-! DEFINITION. The state of PDES as plain data (spec/10_state.md), in the spec's own two groups (R20): the decoder group
with its Stats, and the queue group. Beside them stand the model's own fields: the two open parameters, the requests
the environment will present, and the record of what APPLY returned. -/

namespace Sys2Proof.Machine

/-- The slots of the ring buffer that hold something, as (slot index, record), in one canonical form: indices
strictly rising and below 256, no record equal to what an unlisted slot reads as (`Memory.wf`). The ring holds whole
records, not bytes (spec/20_memory.md R51, R53): log 5. -/
abbrev Memory := List (Nat × RegisterWriteEvent)

/-- The decoder group without the Stats (R21 to R27). -/
structure Decoder where
  /-- R21. -/
  stage : Stage
  /-- The header accumulation buffer, `hdrBuf[0]` the oldest byte (R22). -/
  hdrBuf : Vector Byte 12
  /-- How many bytes of `hdrBuf` are valid (R22). -/
  hdrFill : BitVec 4
  /-- The event accumulation buffer (R23). -/
  evtBuf : Vector Byte 8
  /-- How many bytes of `evtBuf` are valid (R23). -/
  evtFill : BitVec 4
  /-- The header's declared `eventCount` (R24). -/
  expectedEvents : Word
  /-- The header's `frameNumber`; no rule reads it (R25). -/
  frameNumber : Word
  /-- How many events of the frame have been consumed (R26). -/
  eventsRead : Word
  /-- The frame's remaining events are consumed and not forwarded (R27). -/
  skippingFrame : Bool
deriving DecidableEq, Repr

/-- The four cumulative counters (R28, R29). -/
structure Stats where
  framesDecoded : Word
  unsupportedChip : Word
  writesForwarded : Word
  /-- Reserved: no operation increments it (R29). -/
  framesDropped : Word
deriving DecidableEq, Repr

/-- The queue group (R30 to R35). -/
structure Queue where
  /-- The 256 slots (R31). -/
  buf : Memory
  /-- The slot the next successful PUSH fills (R32). -/
  wr : SlotIndex
  /-- The slot of the head event (R33). -/
  rd : SlotIndex
  /-- No slot is live (R34). -/
  empty : Bool
  /-- `cyclesUntilNextEvent`, two's complement (R35). -/
  cnt : Word
deriving DecidableEq, Repr

/-- One register write to the engine, as the engine write port shows it (spec/30_encoding.md R84). -/
structure EngineWrite where
  register : BitVec 5
  value : Byte
deriving DecidableEq, Repr

/-- What the environment presents on the ports in one step (R82, R83). -/
structure PortRequest where
  /-- The reset input `rst`. -/
  rst : Bool
  /-- `p_cmd` when `p_valid = 1`. -/
  producer : Option (BitVec 50)
  /-- `c_cycles` when `c_valid = 1`. -/
  consumer : Option Word
deriving DecidableEq, Repr

/-- The machine. -/
structure State where
  /-- The decoder group, less the Stats. -/
  dec : Decoder
  /-- The Stats. -/
  stats : Stats
  /-- The queue group. -/
  queue : Queue
  /-- MODEL'S OWN (log 1): the parameter `MAGIC`; no operation writes it. -/
  magic : Word
  /-- MODEL'S OWN (log 2): the parameter `ARB`; no operation writes it. -/
  arb : Arb
  /-- MODEL'S OWN (log 2): how many simultaneous pairs have taken a free order. -/
  arbCount : Nat
  /-- MODEL'S OWN (log 3): the requests still to be presented, the next one first. -/
  ports : List PortRequest
  /-- MODEL'S OWN (log 4): the list each APPLY returned, oldest APPLY first. -/
  applyLog : List (List EngineWrite)
deriving DecidableEq, Repr

/-- PDES has no fault: "No operation of PDES can fail, fault, trap, abort, block, or return an error code"
(spec/60_exceptions.md R180). The type has no constructor, so nothing raises one (log 25). -/
inductive Fault
deriving DecidableEq, Repr

/-- Why a step has no meaning. -/
inductive Refusal where
  /-- Raised by `exec` alone, for an instruction without a meaning yet; safe. No arm raises it: every row of the
  table has its meaning. -/
  | notModelled (mnemonic : String)
deriving DecidableEq, Repr

/-- The decoder after FrameReset, DRESET and RESET (spec/40_decoder.md R111). -/
def Decoder.cleared : Decoder where
  stage := .seekingHeader
  hdrBuf := #v[0, 0, 0, 0, 0, 0, 0, 0, 0, 0, 0, 0]
  hdrFill := 0
  evtBuf := #v[0, 0, 0, 0, 0, 0, 0, 0]
  evtFill := 0
  expectedEvents := 0
  frameNumber := 0
  eventsRead := 0
  skippingFrame := false

/-- The Stats after RESET (R211). -/
def Stats.cleared : Stats where
  framesDecoded := 0
  unsupportedChip := 0
  writesForwarded := 0
  framesDropped := 0

/-- The queue after RESET (R40). The slots are unspecified there; the model lists none: DESIGN CHOICE (log 6). -/
def Queue.initial : Queue where
  buf := []
  wr := 0
  rd := 0
  empty := true
  cnt := 0

/-- The machine right after RESET (R40, R211), no request pending and nothing returned yet. The magic word has no
value the proofs can see (log 1); `ARB` has the default `Any` (R4). -/
def State.reset : State where
  dec := Decoder.cleared
  stats := Stats.cleared
  queue := Queue.initial
  magic := Config.magic
  arb := .any
  arbCount := 0
  ports := []
  applyLog := []

end Sys2Proof.Machine
end

