-- ==== Sys2Proof/Machine/Flags.lean ====
section
/-! DEFINITION. Every flag and test of PDES: the index arithmetic and the full and empty tests of spec/20_memory.md R56,
the due test of APPLY's loop (spec/41_queue_scheduler.md R135), the skipping flag a header sets (spec/40_decoder.md
R104), and the end-of-frame comparisons (R110). PDES has no condition codes (spec/10_state.md R27). -/

namespace Sys2Proof.Machine

/-- `next(i) = (i + 1) mod C`: a truncation to 8 bits (R56). -/
def nextIndex (i : SlotIndex) : SlotIndex := i + 1

/-- The empty test on the indices; equal to the flag `empty` after every operation (R56). -/
def Queue.isEmpty (q : Queue) : Bool := q.rd == q.wr

/-- The full test (R56). -/
def Queue.isFull (q : Queue) : Bool := nextIndex q.wr == q.rd

/-- `(wr - rd) mod C`, the number of live events (R56). -/
def Queue.liveCount (q : Queue) : Nat := (q.wr - q.rd).toNat

/-- Is the head due, `empty == 0 and cnt <=s 0` (R135)? An event is due when the countdown reaches exactly 0. -/
def Queue.headDue (q : Queue) : Bool := !q.empty && q.cnt.sle 0

/-- The skipping flag of a frame just accepted: an empty frame is skipping at once (R104). -/
def skippingAtAccept (eventCount : Word) : Bool := eventCount == 0

/-- `eventsRead` has reached the declared count (R110). -/
def Decoder.frameComplete (d : Decoder) : Bool := d.eventsRead == d.expectedEvents

/-- `eventsRead >u expectedEvents`: the defensive check (R110). -/
def Decoder.overrun (d : Decoder) : Bool := d.expectedEvents.ult d.eventsRead

end Sys2Proof.Machine
end

