-- ==== Sys2Proof/Machine/Operands.lean ====
section
/-! DEFINITION. Every operand form of PDES (spec/30_encoding.md R74 to R76): the event a wire event or an ENQ hands to
PUSH, the seed and the carry the countdown takes from `delayCycles` (spec/41_queue_scheduler.md R142), and the write
APPLY emits (R139). -/

namespace Sys2Proof.Machine

/-- The event forwarded from the operands `address`, `value`, `delay`: the address truncated to five bits, the rest
copied (R75, R76, R160). -/
def eventOf (address value : Byte) (delay : Word) : RegisterWriteEvent where
  register := registerOf address
  value := value
  delayCycles := delay

/-- `as_s32(delayCycles)`: seeding is a bit copy (R132, R142). -/
def seedOf (ev : RegisterWriteEvent) : Word := ev.delayCycles

/-- `cnt +_32 delayCycles`: the carry adds modulo 2^32 and keeps the overshoot (R136, R142). -/
def carry (cnt : Word) (ev : RegisterWriteEvent) : Word := cnt + ev.delayCycles

/-- `cnt -_32 n`: the decrement wraps modulo 2^32 (R134, R142). -/
def elapse (cnt n : Word) : Word := cnt - n

/-- `emit(ev.register, ev.value)`: `delayCycles` is not sent to the engine (R139). -/
def writeOf (ev : RegisterWriteEvent) : EngineWrite where
  register := ev.register
  value := ev.value

end Sys2Proof.Machine
end

