-- ==== Sys2Proof/Machine/Ops.lean ====
section
/-! DEFINITION. The named operations every meaning is made of: the ring buffer's slots, PUSH and APPLY on the queue group,
the buffers, header accept, slide, frame end and FrameReset on the decoder group. PDES takes no exception
(spec/60_exceptions.md R180, R189): in the place of an exception entry stand the recoveries of R181, each a few writes
inside the operation that meets the condition (`slideWindow`, `markUnsupported`, the dropping branch of
`Queue.push`, `countAndCheck`). -/

namespace Sys2Proof.Machine

/-! ## The ring buffer's slots (R31, R50) -/

/-- What a slot nothing has written reads as. The spec leaves it unspecified and never reads it (R31, U12):
DESIGN CHOICE (log 5), unsafe. -/
def blankEvent : RegisterWriteEvent where
  register := 0
  value := 0
  delayCycles := 0

/-- The canonical form from slot `lo` on. -/
def Memory.wfFrom : Nat → Memory → Bool
  | _, [] => true
  | lo, (i, ev) :: rest => decide (lo ≤ i) && decide (i < 256) && (ev != blankEvent) && Memory.wfFrom (i + 1) rest

/-- The canonical form: slot indices strictly rising and below 256, no listed record equal to an unlisted one. -/
def Memory.wf (m : Memory) : Bool := Memory.wfFrom 0 m

/-- The record at slot number `i`. -/
def Memory.readAt : Memory → Nat → RegisterWriteEvent
  | [], _ => blankEvent
  | (j, ev) :: rest, i => if i = j then ev else Memory.readAt rest i

/-- `MemRead(i, 1)`, one whole slot (spec/00_scope.md R9). -/
def Memory.read (m : Memory) (i : SlotIndex) : RegisterWriteEvent := Memory.readAt m i.toNat

/-- The list with slot number `i` not listed. -/
def Memory.eraseAt : Memory → Nat → Memory
  | [], _ => []
  | (j, ev) :: rest, i => if i = j then rest else (j, ev) :: Memory.eraseAt rest i

/-- The list with slot number `i` listed as `ev`, indices still rising. -/
def Memory.insertAt : Memory → Nat → RegisterWriteEvent → Memory
  | [], i, ev => [(i, ev)]
  | (j, old) :: rest, i, ev =>
    if i < j then (i, ev) :: (j, old) :: rest
    else if i = j then (i, ev) :: rest
    else (j, old) :: Memory.insertAt rest i ev

/-- `MemWrite(i, 1, ev)`, one whole slot (R9, R53), keeping the canonical form. -/
def Memory.write (m : Memory) (i : SlotIndex) (ev : RegisterWriteEvent) : Memory :=
  if ev = blankEvent then Memory.eraseAt m i.toNat else Memory.insertAt m i.toNat ev

/-- The events in `k` slots from index `i` on, in index order. -/
def Memory.run (m : Memory) : SlotIndex → Nat → List RegisterWriteEvent
  | _, 0 => []
  | i, k + 1 => m.read i :: Memory.run m (nextIndex i) k

/-- The live events, head first: slots `rd, rd+1, …, wr-1` (R31). -/
def Queue.live (q : Queue) : List RegisterWriteEvent := q.buf.run q.rd q.liveCount

/-! ## The queue group -/

/-- `PUSH(ev)` on the queue group (R130): dropped when full (R131), seeding the countdown on the empty to non-empty
transition (R132), else only written behind the tail (R133). -/
def Queue.push (q : Queue) (ev : RegisterWriteEvent) : Queue :=
  if q.isFull then q
  else
    let q' := { q with buf := q.buf.write q.wr ev, wr := nextIndex q.wr }
    if q.empty then { q' with cnt := seedOf ev, empty := false } else q'

/-- One pass of APPLY's loop less its `emit`: advance `rd`, then carry (R136) or, after the last event, empty the
queue and zero the countdown (R137). -/
def Queue.pop (q : Queue) : Queue :=
  let rd := nextIndex q.rd
  if rd ≠ q.wr then { q with rd := rd, cnt := carry q.cnt (q.buf.read rd) }
  else { q with rd := rd, empty := true, cnt := 0 }

/-- The write of the head event. -/
def Queue.headWrite (q : Queue) : EngineWrite := writeOf (q.buf.read q.rd)

/-- APPLY's loop, at most `k` passes (R135). -/
def Queue.drain : Nat → Queue → Queue × List EngineWrite
  | 0, q => (q, [])
  | k + 1, q =>
    if q.headDue then
      let r := Queue.drain k q.pop
      (r.1, q.headWrite :: r.2)
    else (q, [])

/-- The step after the loop: `if empty == 1 then cnt <- 0` (R138). -/
def Queue.settle (q : Queue) : Queue := if q.empty then { q with cnt := 0 } else q

/-- The passes the loop is given. Each pass moves `rd` on by one, and the queue is empty when it meets `wr`, so 256
passes are all the loop can make in any state: the bound cuts nothing off (log 9). -/
def drainPasses : Nat := 256

/-- `APPLY(n)` on the queue group, with the list it returns (R134). -/
def Queue.applyDue (q : Queue) (n : Word) : Queue × List EngineWrite :=
  let r := Queue.drain drainPasses { q with cnt := elapse q.cnt n }
  (r.1.settle, r.2)

/-- `QCLEAR()` on the queue group; the slots keep their content (R140). -/
def Queue.clear (q : Queue) : Queue := { q with wr := 0, rd := 0, empty := true, cnt := 0 }

/-! ## The decoder group -/

/-- `hdrBuf[hdrFill] <- b ; hdrFill <- hdrFill + 1` (R101). With `hdrFill` above 11, which no operation leaves
(R37), the byte finds no place and is lost (log 8). -/
def Decoder.takeHeaderByte (d : Decoder) (b : Byte) : Decoder :=
  { d with hdrBuf := d.hdrBuf.setIfInBounds d.hdrFill.toNat b, hdrFill := d.hdrFill + 1 }

/-- `evtBuf[evtFill] <- b ; evtFill <- evtFill + 1` (R105); log 8 as above. -/
def Decoder.takeEventByte (d : Decoder) (b : Byte) : Decoder :=
  { d with evtBuf := d.evtBuf.setIfInBounds d.evtFill.toNat b, evtFill := d.evtFill + 1 }

/-- A header accepted (R102, R104). -/
def Decoder.accept (d : Decoder) (eventCount frameNumber : Word) : Decoder :=
  { d with
    expectedEvents := eventCount
    frameNumber := frameNumber
    eventsRead := 0
    evtFill := 0
    evtBuf := Decoder.cleared.evtBuf
    skippingFrame := skippingAtAccept eventCount
    hdrFill := 0
    hdrBuf := Decoder.cleared.hdrBuf
    stage := .readingEvents }

/-- The window slides by one byte: the oldest is lost, the other eleven stay in order (R103). -/
def Decoder.slide (d : Decoder) : Decoder :=
  let b := d.hdrBuf
  { d with
    hdrBuf := #v[b[1], b[2], b[3], b[4], b[5], b[6], b[7], b[8], b[9], b[10], b[11], 0]
    hdrFill := 11 }

/-- `evtFill <- 0 ; evtBuf[0..7] <- 0`: the event is taken out of the buffer (R106). -/
def Decoder.takeEvent (d : Decoder) : Decoder := { d with evtFill := 0, evtBuf := Decoder.cleared.evtBuf }

/-- `eventsRead <- eventsRead + 1`, modulo 2^32 (R110). -/
def Decoder.countEvent (d : Decoder) : Decoder := { d with eventsRead := d.eventsRead + 1 }

/-- Count the consumed event and end the frame when its declared count is reached, or passed (R110). -/
def Decoder.countAndCheck (d : Decoder) : Decoder :=
  let d' := d.countEvent
  if d'.frameComplete then Decoder.cleared
  else if d'.overrun then Decoder.cleared
  else d'

/-! ## The machine -/

/-- `call PUSH(ev)` (R130). -/
def State.push (s : State) (ev : RegisterWriteEvent) : State := { s with queue := s.queue.push ev }

/-- `call FrameReset()`: every decoder element but the Stats (R111). -/
def State.resetFrame (s : State) : State := { s with dec := Decoder.cleared }

/-- `EvaluateWindow`'s accepting branch, with `framesDecoded + 1` modulo 2^32 (R102). -/
def State.acceptHeader (s : State) (eventCount frameNumber : Word) : State :=
  { s with
    dec := s.dec.accept eventCount frameNumber
    stats := { s.stats with framesDecoded := s.stats.framesDecoded + 1 } }

/-- `SlideWindow()`: the recovery from X1 MagicMismatch; nothing is counted (R103, R182). -/
def State.slideWindow (s : State) : State := { s with dec := s.dec.slide }

/-- The event leaves the buffer before it is validated (R106). -/
def State.takeEvent (s : State) : State := { s with dec := s.dec.takeEvent }

/-- `MarkUnsupported()`: the recovery from X3 UnsupportedChip (R107, R184). -/
def State.markUnsupported (s : State) : State :=
  { s with
    dec := { s.dec with skippingFrame := true }
    stats := { s.stats with unsupportedChip := s.stats.unsupportedChip + 1 } }

/-- `Forward(address, value, delay)`: counted whether or not the queue keeps the event (R108). -/
def State.forward (s : State) (address value : Byte) (delay : Word) : State :=
  let s' := s.push (eventOf address value delay)
  { s' with stats := { s'.stats with writesForwarded := s'.stats.writesForwarded + 1 } }

/-- `CountAndCheck()` (R110); its `>u` branch is the recovery from X5 EventOverrun (R186). -/
def State.countAndCheck (s : State) : State := { s with dec := s.dec.countAndCheck }

/-- `APPLY(n)`: the list it returns is shown on the engine write port, here as the newest entry of `applyLog`
(R134, R84, log 4). -/
def State.applyDue (s : State) (n : Word) : State :=
  let r := s.queue.applyDue n
  { s with queue := r.1, applyLog := s.applyLog ++ [r.2] }

/-- `QCLEAR()` (R140). -/
def State.clearQueue (s : State) : State := { s with queue := s.queue.clear }

/-- `RESET()`: every element of both groups (R211, R40). The slots are unspecified afterwards; the model lists none
(log 6). The model's own fields are no state of the block and stay. -/
def State.hardwareReset (s : State) : State :=
  { s.resetFrame with stats := Stats.cleared, queue := Queue.initial }

end Sys2Proof.Machine
end

