-- ==== Sys2Proof/Machine/Wire.lean ====
section
/-! DEFINITION. The five wire rows of the opcode table: what a completed header window or a completed event does, inside
the FEED of its last byte (spec/40_decoder.md R102 to R110). A wire row takes its operands from the window; the
decoder selects it only in its context (stage, fill count, `skippingFrame`), and the meaning does not test the context
again (log 7). -/

namespace Sys2Proof.Machine

/-- `HDR`: the header is accepted; an empty frame is skipping at once (R102, R104). -/
def execHdr (eventCount frameNumber : Word) (s : State) : Host.Outcome State Fault Refusal :=
  .next (s.acceptHeader eventCount frameNumber)

/-- `SLIDE`: the window slides by one byte (R103). None of the word's fields is looked at again: the bytes that stay
are the buffer's. -/
def execSlide (_word _eventCount _frameNumber : Word) (s : State) : Host.Outcome State Fault Refusal :=
  .next s.slideWindow

/-- `EVT_WRITE`: forward, then count and check (R106, R108, R110). `pad` has no effect (R73). -/
def execEvtWrite (address value _pad : Byte) (delay : Word) (s : State) : Host.Outcome State Fault Refusal :=
  .next (s.takeEvent.forward address value delay).countAndCheck

/-- `EVT_UNSUP`: mark the frame as skipping, then count and check (R106, R107, R110). -/
def execEvtUnsup (_chipId _address _value _pad : Byte) (_delay : Word) (s : State) :
    Host.Outcome State Fault Refusal :=
  .next s.takeEvent.markUnsupported.countAndCheck

/-- `EVT_SKIP`: count and check, nothing else (R106, R109, R110). -/
def execEvtSkip (_chipId _address _value _pad : Byte) (_delay : Word) (s : State) :
    Host.Outcome State Fault Refusal :=
  .next s.takeEvent.countAndCheck

end Sys2Proof.Machine
end

