-- ==== Sys2Proof/Machine/Decoder.lean ====
section
/-! DEFINITION. The decoder's operations: FEED, DRESET and the micro-operation FrameReset (spec/40_decoder.md). -/

namespace Sys2Proof.Machine

/-- `EvaluateWindow()`: 12 bytes are held; the wire decoder says which row they are (R102, R103). -/
def evaluateWindow (s : State) : Host.Outcome State Fault Refusal :=
  match classifyHeader s.magic (headerWord s.dec.hdrBuf) with
  | .accepted eventCount frameNumber => execHdr eventCount frameNumber s
  | .mismatch word eventCount frameNumber => execSlide word eventCount frameNumber s

/-- `ConsumeEvent()`: 8 bytes are held; the wire decoder says which row they are (R106). -/
def consumeEvent (s : State) : Host.Outcome State Fault Refusal :=
  match classifyEvent s.dec.skippingFrame (eventWord s.dec.evtBuf) with
  | .write address value pad delay => execEvtWrite address value pad delay s
  | .unsupported chipId address value pad delay => execEvtUnsup chipId address value pad delay s
  | .skipped chipId address value pad delay => execEvtSkip chipId address value pad delay s

/-- The state with `b` put into the buffer of the current stage (R101, R105). -/
def State.takeByte (s : State) (b : Byte) : State :=
  match s.dec.stage with
  | .seekingHeader => { s with dec := s.dec.takeHeaderByte b }
  | .readingEvents => { s with dec := s.dec.takeEventByte b }

/-- `FeedHeaderByte(b)` (R101). -/
def feedHeaderByte (b : Byte) (s : State) : Host.Outcome State Fault Refusal :=
  let s' := { s with dec := s.dec.takeHeaderByte b }
  if s'.dec.hdrFill = 12 then evaluateWindow s' else .next s'

/-- `FeedEventByte(b)` (R105). -/
def feedEventByte (b : Byte) (s : State) : Host.Outcome State Fault Refusal :=
  let s' := { s with dec := s.dec.takeEventByte b }
  if s'.dec.evtFill = 8 then consumeEvent s' else .next s'

/-- `FEED b` (R100): one byte of the stream, and the wire row it completes, in one transition. -/
def execFeed (b : Byte) (s : State) : Host.Outcome State Fault Refusal :=
  match s.dec.stage with
  | .seekingHeader => feedHeaderByte b s
  | .readingEvents => feedEventByte b s

/-- `DRESET`: FrameReset; the Stats and the queue keep their values (R112). -/
def execDreset (s : State) : Host.Outcome State Fault Refusal := .next s.resetFrame

/-- `FrameReset` (R111). -/
def execFrameReset (s : State) : Host.Outcome State Fault Refusal := .next s.resetFrame

end Sys2Proof.Machine
end

