-- ==== Sys2Proof/Machine/Scheduler.lean ====
section
/-! DEFINITION. The operations on the queue: PUSH, APPLY, QCLEAR (spec/41_queue_scheduler.md), the host's ENQ
(spec/42_host_and_renderer.md R160), and the hardware RESET (spec/70_reset_and_hazards.md R211). -/

namespace Sys2Proof.Machine

/-- `PUSH ev` (R130 to R133). -/
def execPush (ev : RegisterWriteEvent) (s : State) : Host.Outcome State Fault Refusal := .next (s.push ev)

/-- `ENQ a, v, d`: `PUSH({a[4:0], v, d})`; the Stats and the decoder are not touched (R160). -/
def execEnq (a v : Byte) (d : Word) (s : State) : Host.Outcome State Fault Refusal := .next (s.push (eventOf a v d))

/-- `APPLY n` (R134 to R139). -/
def execApply (n : Word) (s : State) : Host.Outcome State Fault Refusal := .next (s.applyDue n)

/-- `QCLEAR` (R140). -/
def execQclear (s : State) : Host.Outcome State Fault Refusal := .next s.clearQueue

/-- `RESET` (R211). -/
def execReset (s : State) : Host.Outcome State Fault Refusal := .next s.hardwareReset

end Sys2Proof.Machine
end

