-- ==== Sys2Proof/Machine/Dispatch.lean ====
section
/-! DEFINITION. The dispatch: one arm per constructor of Instr, each one call of its meaning. -/

namespace Sys2Proof.Machine

def exec (i : Instr) (s : State) : Host.Outcome State Fault Refusal :=
  match i with
  -- wire rows
  | .hdr eventCount frameNumber => Sys2Proof.Machine.execHdr eventCount frameNumber s
  | .slide word eventCount frameNumber => Sys2Proof.Machine.execSlide word eventCount frameNumber s
  | .evtWrite address value pad delay => Sys2Proof.Machine.execEvtWrite address value pad delay s
  | .evtUnsup chipId address value pad delay => Sys2Proof.Machine.execEvtUnsup chipId address value pad delay s
  | .evtSkip chipId address value pad delay => Sys2Proof.Machine.execEvtSkip chipId address value pad delay s
  -- producer port
  | .feed b => Sys2Proof.Machine.execFeed b s
  | .enq a v d => Sys2Proof.Machine.execEnq a v d s
  | .dreset => Sys2Proof.Machine.execDreset s
  | .qclear => Sys2Proof.Machine.execQclear s
  -- consumer port
  | .apply n => Sys2Proof.Machine.execApply n s
  -- reset input
  | .reset => Sys2Proof.Machine.execReset s
  -- micro-operations
  | .push ev => Sys2Proof.Machine.execPush ev s
  | .frameReset => Sys2Proof.Machine.execFrameReset s

end Sys2Proof.Machine
end

