-- ==== Sys2Proof/Machine/Ports.lean ====
section
/-! DEFINITION. One step of the ports (spec/30_encoding.md R82, R83; spec/20_memory.md R57, R59): which operations a
request stands for, and in which order a simultaneous pair runs. And the bytes of a table word put where the next step
takes them (`loadTableWord`, for the host). -/

namespace Sys2Proof.Machine

/-- Run `f` on the next state an outcome holds. -/
def andThen (o : Host.Outcome State Fault Refusal) (f : State → Host.Outcome State Fault Refusal) :
    Host.Outcome State Fault Refusal :=
  match o with
  | .next s => f s
  | .fault r => .fault r
  | .refused r => .refused r

/-- Does the producer's operation run first in this simultaneous pair (R59)? Under `any` the answer is a free value
for each pair (log 2). -/
def State.producerFirst (s : State) : Bool :=
  match s.arb with
  | .producerFirst => true
  | .consumerFirst => false
  | .any => Config.producerFirstAt s.arbCount

/-- The state with this simultaneous pair's free choice used up. -/
def State.countPair (s : State) : State :=
  match s.arb with
  | .producerFirst => s
  | .consumerFirst => s
  | .any => { s with arbCount := s.arbCount + 1 }

/-- A simultaneous pair: both operations run, one after the other, each atomic (R59). What the order changes is left to
the two operations as R130 and R134 write them: DEDUCED (log 26), since R59's sentence on when the orders differ names
fewer cases than they do (a PUSH onto a full queue, and one behind the last event the APPLY pops, differ too). -/
def runPair (p c : Instr) (s : State) : Host.Outcome State Fault Refusal :=
  if s.producerFirst then andThen (exec p s.countPair) (exec c)
  else andThen (exec c s.countPair) (exec p)

/-- One step's request: `rst` overrides every command presented with it; with neither `p_valid` nor `c_valid` nothing
happens (R82, R83). -/
def runRequest (r : PortRequest) (s : State) : Host.Outcome State Fault Refusal :=
  if r.rst then exec .reset s
  else
    match r.producer, r.consumer with
    | none, none => .next s
    | some c, none => exec (decodeProducer c) s
    | none, some n => exec (decodeConsumer n) s
    | some c, some n => runPair (decodeProducer c) (decodeConsumer n) s

/-- A request of the producer port alone. -/
def producerRequest (c : BitVec 50) : PortRequest where
  rst := false
  producer := some c
  consumer := none

/-- A request of the consumer port alone. -/
def consumerRequest (n : Word) : PortRequest where
  rst := false
  producer := none
  consumer := some n

/-- A request of the reset input alone. -/
def resetRequest (rst : BitVec 1) : PortRequest where
  rst := rst == 1#1
  producer := none
  consumer := none

/-- The command word of `FEED b` (R82). -/
def feedCommand (b : Byte) : BitVec 50 := encodeCommand 0b00#2 0 b 0

/-- The state with `r` as the next request. -/
def State.present (s : State) (r : PortRequest) : State := { s with ports := r :: s.ports }

/-- A state about to complete the header window `h`: eleven bytes held, the twelfth as the next FEED. The magic word
is the stand-in, as in `decodeTable` (log 20). -/
def State.loadHeader (s : State) (h : BitVec 96) : State :=
  let byte (k : Nat) : Byte := h.extractLsb' (8 * k) 8
  let dec :=
    { Decoder.cleared with
      hdrBuf := #v[byte 0, byte 1, byte 2, byte 3, byte 4, byte 5, byte 6, byte 7, byte 8, byte 9, byte 10, 0]
      hdrFill := 11 }
  ({ s with dec := dec, magic := Config.magicT }).present (producerRequest (feedCommand (byte 11)))

/-- A state about to complete the event `e`, the first of a frame of two that is not skipping: seven bytes held, the
eighth as the next FEED (log 20). -/
def State.loadEvent (s : State) (e : BitVec 64) : State :=
  let byte (k : Nat) : Byte := e.extractLsb' (8 * k) 8
  let dec :=
    { Decoder.cleared with
      stage := .readingEvents
      evtBuf := #v[byte 0, byte 1, byte 2, byte 3, byte 4, byte 5, byte 6, 0]
      evtFill := 7
      expectedEvents := 2 }
  ({ s with dec := dec }).present (producerRequest (feedCommand (byte 7)))

/-- The state in which the next step runs what is presented. -/
def State.load (s : State) : Presented → State
  | .header h => s.loadHeader h
  | .event e => s.loadEvent e
  | .producer c => s.present (producerRequest c)
  | .consumer n => s.present (consumerRequest n)
  | .resetInput rst => s.present (resetRequest rst)

/-- The state in which the next step runs the host's table word; a word the decoder rejects changes nothing. -/
def State.loadTableWord (s : State) (nbits w : Nat) : State :=
  match presentTableWord nbits w with
  | .ok p => s.load p
  | .error _ => s

end Sys2Proof.Machine
end

