-- ==== Sys2Proof/Machine/Step.lean ====
section
/-! DEFINITION. One step of the machine: one step of the ports (spec/00_scope.md R6, spec/20_memory.md R59). -/

namespace Sys2Proof.Machine

/-- Take the next request of the environment and run it; without one nothing happens (R82, log 3). -/
def step (s : State) : Host.Outcome State Fault Refusal :=
  match s.ports with
  | [] => .next s
  | r :: rest => runRequest r { s with ports := rest }

/-- The host's table word put where the next step takes its operation (log 20). -/
def State.withFetchWord (s : State) (nbits w : Nat) : State := s.loadTableWord nbits w

end Sys2Proof.Machine
end

