-- ==== Sys2Proof/Machine/Conditions.lean ====
section
/-! DEFINITION. What an operation does beyond its state change, as functions of the operation and the state it runs in:
the conditions it absorbs (spec/60_exceptions.md R181, in the order of R188) and the events it passes to PUSH
(spec/41_queue_scheduler.md R143). PDES stores neither anywhere (R181), so neither is state (log 21). -/

namespace Sys2Proof.Machine

/-- The five absorbed conditions, X1 to X5 (R181). -/
inductive Condition where
  /-- X1: a full window whose first word is not `MAGIC` (R182). -/
  | magicMismatch
  /-- X2: a header with `eventCount == 0` (R183). -/
  | emptyFrame
  /-- X3: `chipId != 0` in a frame not yet skipping (R184). -/
  | unsupportedChip
  /-- X4: PUSH on a full queue (R185). -/
  | queueFull
  /-- X5: more events consumed than declared (R186). -/
  | eventOverrun
deriving DecidableEq, Repr

/-- X2, at header accept (R104). -/
def absorbedAtAccept (eventCount : Word) : List Condition :=
  if eventCount = 0 then [.emptyFrame] else []

/-- X4, inside PUSH (R131). -/
def absorbedByPush (q : Queue) : List Condition := if q.isFull then [.queueFull] else []

/-- X5, in the check after an event has been counted (R110). -/
def absorbedByCheck (d : Decoder) : List Condition :=
  if d.countEvent.frameComplete then []
  else if d.countEvent.overrun then [.eventOverrun]
  else []

/-- X1 or X2, when a window is complete (R188). -/
def absorbedByWindow (magic : Word) (d : Decoder) : List Condition :=
  match classifyHeader magic (headerWord d.hdrBuf) with
  | .accepted eventCount _ => absorbedAtAccept eventCount
  | .mismatch _ _ _ => [.magicMismatch]

/-- X3, X4 and X5, when an event is complete, in program order (R188). -/
def absorbedByEvent (d : Decoder) (q : Queue) : List Condition :=
  match classifyEvent d.skippingFrame (eventWord d.evtBuf) with
  | .write _ _ _ _ => absorbedByPush q ++ absorbedByCheck d
  | .unsupported _ _ _ _ _ => [.unsupportedChip] ++ absorbedByCheck d
  | .skipped _ _ _ _ _ => absorbedByCheck d

/-- The conditions a FEED absorbs, in order. -/
def absorbedByFeed (b : Byte) (s : State) : List Condition :=
  match s.dec.stage with
  | .seekingHeader =>
    if (s.dec.takeHeaderByte b).hdrFill = 12 then absorbedByWindow s.magic (s.dec.takeHeaderByte b) else []
  | .readingEvents =>
    if (s.dec.takeEventByte b).evtFill = 8 then absorbedByEvent (s.dec.takeEventByte b) s.queue else []

/-- The conditions an operation absorbs, in order. APPLY, DRESET, QCLEAR and RESET meet none (R188). -/
def absorbedBy (i : Instr) (s : State) : List Condition :=
  match i with
  | .hdr eventCount _ => absorbedAtAccept eventCount
  | .slide _ _ _ => [.magicMismatch]
  | .evtWrite _ _ _ _ => absorbedByPush s.queue ++ absorbedByCheck s.dec
  | .evtUnsup _ _ _ _ _ => [.unsupportedChip] ++ absorbedByCheck s.dec
  | .evtSkip _ _ _ _ _ => absorbedByCheck s.dec
  | .feed b => absorbedByFeed b s
  | .enq _ _ _ => absorbedByPush s.queue
  | .dreset => []
  | .qclear => []
  | .apply _ => []
  | .reset => []
  | .push _ => absorbedByPush s.queue
  | .frameReset => []

/-- The event a FEED passes to PUSH, if it completes a supported event of a frame not skipping (R108). -/
def pushedByFeed (b : Byte) (d : Decoder) : List RegisterWriteEvent :=
  match d.stage with
  | .seekingHeader => []
  | .readingEvents =>
    if (d.takeEventByte b).evtFill = 8 then
      match classifyEvent d.skippingFrame (eventWord (d.takeEventByte b).evtBuf) with
      | .write address value _ delay => [eventOf address value delay]
      | .unsupported _ _ _ _ _ => []
      | .skipped _ _ _ _ _ => []
    else []

/-- The events an operation passes to PUSH, kept by the queue or not (R143). -/
def pushedBy (i : Instr) (s : State) : List RegisterWriteEvent :=
  match i with
  | .hdr _ _ => []
  | .slide _ _ _ => []
  | .evtWrite address value _ delay => [eventOf address value delay]
  | .evtUnsup _ _ _ _ _ => []
  | .evtSkip _ _ _ _ _ => []
  | .feed b => pushedByFeed b s.dec
  | .enq a v d => [eventOf a v d]
  | .dreset => []
  | .qclear => []
  | .apply _ => []
  | .reset => []
  | .push ev => [ev]
  | .frameReset => []

end Sys2Proof.Machine
end

