-- ==== Sys2Proof/Machine/Sequences.lean ====
section
/-! DEFINITION. Sequences of operations: spec/00_scope.md R6 (an execution is a sequence of whole operations) and the
pseudo-commands and stream items of spec/30_encoding.md R86. -/

namespace Sys2Proof.Machine

/-- Run operations one after the other, each atomic (R57). -/
def execAll : List Instr → State → Host.Outcome State Fault Refusal
  | [], s => .next s
  | i :: rest, s => andThen (exec i s) (execAll rest)

/-- The events a sequence of operations passes to PUSH, in order (R143). -/
def pushedByAll : List Instr → State → List RegisterWriteEvent
  | [], _ => []
  | i :: rest, s =>
    match exec i s with
    | .next t => pushedBy i s ++ pushedByAll rest t
    | .fault _ => []
    | .refused _ => []

/-- The byte an operation takes from the stream: FEED alone takes one (R50, R54). -/
def streamByte : Instr → Option Byte
  | .hdr _ _ => none
  | .slide _ _ _ => none
  | .evtWrite _ _ _ _ => none
  | .evtUnsup _ _ _ _ _ => none
  | .evtSkip _ _ _ _ _ => none
  | .feed b => some b
  | .enq _ _ _ => none
  | .dreset => none
  | .qclear => none
  | .apply _ => none
  | .reset => none
  | .push _ => none
  | .frameReset => none

/-- The bytes a sequence of operations takes from the stream, in order. -/
def streamOf (ops : List Instr) : List Byte := ops.filterMap streamByte

/-- The events an operation forwards out of the stream: those a FEED passes to PUSH. -/
def decodedBy (i : Instr) (s : State) : List RegisterWriteEvent :=
  if (streamByte i).isSome then pushedBy i s else []

/-- The events a sequence of operations forwards out of the stream, in order (R114). -/
def decodedByAll : List Instr → State → List RegisterWriteEvent
  | [], _ => []
  | i :: rest, s =>
    match exec i s with
    | .next t => decodedBy i s ++ decodedByAll rest t
    | .fault _ => []
    | .refused _ => []

/-- `FEEDS`: one FEED per byte, in order (R86). -/
def feeds (bytes : List Byte) : State → Host.Outcome State Fault Refusal := execAll (bytes.map Instr.feed)

/-- `HRESET`, the host's reset: `DRESET; QCLEAR` (R161). -/
def hostReset : State → Host.Outcome State Fault Refusal := execAll [.dreset, .qclear]

/-- `RENDER k, n`: `k` times `APPLY n`, what the renderer does for a block of `k` samples (R86, R166). -/
def render (k : Nat) (n : Word) : State → Host.Outcome State Fault Refusal := execAll (List.replicate k (.apply n))

/-- A stream item (R86). -/
inductive StreamItem where
  | hdr (eventCount frameNumber : Word)
  | evt (chipId address value pad : Byte) (delay : Word)
  | raw (bytes : List Byte)
deriving DecidableEq, Repr

/-- The bytes an item assembles to (R86, R72, R73). -/
def StreamItem.bytes (magic : Word) : StreamItem → List Byte
  | .hdr eventCount frameNumber => headerBytes (encodeHeader magic eventCount frameNumber)
  | .evt chipId address value pad delay => eventBytes (encodeEvent chipId address value pad delay)
  | .raw bytes => bytes

/-- The pseudo-item `WR a, v, d`, an `EVT` of the supported chip with `pad` 0 (R86). -/
def StreamItem.wr (address value : Byte) (delay : Word) : StreamItem :=
  .evt Config.supportedChip address value 0 delay

/-- The bytes of items, in order. -/
def assemble (magic : Word) (items : List StreamItem) : List Byte := items.flatMap (StreamItem.bytes magic)

/-- The pseudo-item `FRAME f { … }`: a header that declares the items, and the items (R86). -/
def frame (frameNumber : Word) (items : List StreamItem) : List StreamItem :=
  .hdr (BitVec.ofNat 32 items.length) frameNumber :: items

end Sys2Proof.Machine
end

