-- ==== Sys2Proof/Machine/Status.lean ====
section
/-! DEFINITION. The status outputs (spec/30_encoding.md R85): functions of the state, readable at any time without a side
effect (spec/42_host_and_renderer.md R163, R164). -/

namespace Sys2Proof.Machine

/-- `SeekingHeader = 0`, `ReadingEvents = 1` (R21, D18). -/
def stageBit : Stage → BitVec 1
  | .seekingHeader => 0
  | .readingEvents => 1

/-- What the status outputs show. -/
structure Status where
  framesDecoded : Word
  unsupportedChip : Word
  writesForwarded : Word
  framesDropped : Word
  /-- `cyclesUntilNextEvent` as two's complement. -/
  cnt : Word
  empty : BitVec 1
  stage : BitVec 1
deriving DecidableEq, Repr

/-- The status outputs of a state: `st_framesDecoded` … `st_stage` (R85). -/
def State.status (s : State) : Status where
  framesDecoded := s.stats.framesDecoded
  unsupportedChip := s.stats.unsupportedChip
  writesForwarded := s.stats.writesForwarded
  framesDropped := s.stats.framesDropped
  cnt := s.queue.cnt
  empty := BitVec.ofBool s.queue.empty
  stage := stageBit s.dec.stage

end Sys2Proof.Machine
end

