-- ==== Sys2Proof/Safety.lean ====
section
/-! DEFINITION. What counts as a good state of PDES, in the terms the claims use: the invariants of spec/10_state.md R36
and R37, which states cannot be told apart (R42), how many bytes a frame still takes (spec/30_encoding.md R78), and
the schedule of the live events in the integers (spec/41_queue_scheduler.md R141). PDES has no fault, so every run is
safe in the sense of "does not stop"; a good run is one whose states keep `State.Inv`. -/

namespace Sys2Proof.Machine

/-! ## Invariants -/

/-- The queue group's invariants that speak of one state: R36 items 1 and 4, and the canonical form of the slots. -/
structure Queue.Inv (q : Queue) : Prop where
  /-- The slots are in canonical form. -/
  bufWf : q.buf.wf = true
  /-- `empty == 1` if and only if `rd == wr` (R36 item 1). -/
  emptyIff : q.empty = true ↔ q.rd = q.wr
  /-- If `empty == 1` then `cnt == 0` (R36 item 4). -/
  idleCnt : q.empty = true → q.cnt = 0

/-- The decoder group's invariants (R37 items 1 to 3). -/
structure Decoder.Inv (d : Decoder) : Prop where
  hdrFillLe : d.hdrFill.toNat ≤ 11
  evtFillLe : d.evtFill.toNat ≤ 7
  /-- R37 item 2. -/
  seeking : d.stage = .seekingHeader →
    d.evtFill = 0 ∧ d.expectedEvents = 0 ∧ d.frameNumber = 0 ∧ d.eventsRead = 0 ∧ d.skippingFrame = false
  /-- R37 item 3. -/
  reading : d.stage = .readingEvents →
    d.hdrFill = 0 ∧
      (d.eventsRead.toNat < d.expectedEvents.toNat ∨
        (d.expectedEvents = 0 ∧ d.eventsRead = 0 ∧ d.skippingFrame = true))
  /-- Bytes at indices at or above the fill count are zero (R22, R23). -/
  hdrZero : ∀ i : Fin 12, d.hdrFill.toNat ≤ i.val → d.hdrBuf[i] = 0
  evtZero : ∀ i : Fin 8, d.evtFill.toNat ≤ i.val → d.evtBuf[i] = 0

/-- The invariant of the machine; the reserved counter reads 0 for ever (R29). -/
structure State.Inv (s : State) : Prop where
  dec : s.dec.Inv
  queue : s.queue.Inv
  framesDropped : s.stats.framesDropped = 0

/-! ## Indistinguishable states -/

/-- Decoders that agree but for `frameNumber` and bytes at or above the fill counts (R42). -/
structure Decoder.Alike (d d' : Decoder) : Prop where
  stage : d.stage = d'.stage
  hdrFill : d.hdrFill = d'.hdrFill
  evtFill : d.evtFill = d'.evtFill
  expectedEvents : d.expectedEvents = d'.expectedEvents
  eventsRead : d.eventsRead = d'.eventsRead
  skippingFrame : d.skippingFrame = d'.skippingFrame
  hdrBuf : ∀ i : Fin 12, i.val < d.hdrFill.toNat → d.hdrBuf[i] = d'.hdrBuf[i]
  evtBuf : ∀ i : Fin 8, i.val < d.evtFill.toNat → d.evtBuf[i] = d'.evtBuf[i]

/-- Queues that agree but for slots that are not live (R42, R31). -/
structure Queue.Alike (q q' : Queue) : Prop where
  wr : q.wr = q'.wr
  rd : q.rd = q'.rd
  empty : q.empty = q'.empty
  cnt : q.cnt = q'.cnt
  live : q.live = q'.live

/-- States that no sequence of operations can tell apart (R42): they agree on everything but `frameNumber`, stale
buffer bytes and slots that are not live. -/
structure State.Alike (s s' : State) : Prop where
  dec : s.dec.Alike s'.dec
  queue : s.queue.Alike s'.queue
  stats : s.stats = s'.stats
  magic : s.magic = s'.magic
  arb : s.arb = s'.arb
  arbCount : s.arbCount = s'.arbCount
  ports : s.ports = s'.ports
  applyLog : s.applyLog = s'.applyLog

/-! ## The length of a frame -/

/-- How many bytes a decoder that reads events still takes before it seeks a header again: eight for each declared
event, and eight for an empty frame (R78). -/
def Decoder.bytesLeft (d : Decoder) : Nat :=
  8 * (max d.expectedEvents.toNat 1 - d.eventsRead.toNat) - d.evtFill.toNat

/-! ## The schedule in the integers -/

/-- The due points of live events, in cycles from now: the head's is the countdown, each later one its delay after its
predecessor's (R141). -/
def dueTimes : Nat → List RegisterWriteEvent → List Nat
  | _, [] => []
  | due, [_] => [due]
  | due, _ :: ev :: rest => due :: dueTimes (due + ev.delayCycles.toNat) (ev :: rest)

/-- The due points of a queue whose countdown is not negative. -/
def Queue.dues (q : Queue) : List Nat := dueTimes q.cnt.toNat q.live

/-- Inside the no-wrap range (R142 item 3): the countdown is not negative and the last due point is below 2^31. -/
def Queue.noWrap (q : Queue) : Prop := q.cnt.toNat < 2 ^ 31 ∧ ∀ due ∈ q.dues, due < 2 ^ 31

end Sys2Proof.Machine
end

