-- ==== Sys2Proof/Certificates/Slice0/Obligations.lean ====
section
/-! DEFINITION. The statements for the provers, from the numbered rules of spec/. Each docstring names the rule or the
section it formalises and says where a clause rests on a decision of the spec's own or of the model's. -/

open Sys2Proof Sys2Proof.Machine

/-! ## Reset, totality, invariants -/

/-- Derived from 60_exceptions.md section 1 (R180: "No operation of PDES can fail, fault, trap, abort, block, or
return an error code."). Every instruction, in every state, answers a next state, and so does every step. R180 speaks
of the reachable states; what a FEED does in one that no run reaches is the model's choice (log 8). And a condition is
surfaced nowhere: no operation but APPLY returns anything, and what any operation leaves outside the Stats, the
decoder, the queue and APPLY's record is what was there. That no operation, RESET included, touches the model's own
fields is the model's choice: the arbitration and its count (log 2), the requests (log 3), and, but for APPLY, the
record `applyLog` (log 4). -/
def Obligations.EveryOperationCompletes : Prop :=
  (∀ (i : Instr) (s : State), ∃ t, exec i s = .next t ∧ ((∀ n, i ≠ .apply n) → t.applyLog = s.applyLog) ∧
    t = { s with dec := t.dec, stats := t.stats, queue := t.queue, applyLog := t.applyLog }) ∧
  ∀ s : State, ∃ t, step s = .next t

/-- Derived from 10_state.md section 6 (R40) and R211; the counters' and the indices' zeros are the spec's own
decision D12 (log 16), the empty slot list is the model's choice (log 6) and no clause speaks of it. The instruction
RESET puts every element of both groups at its reset value, whatever they held, and leaves the model's own fields
alone: that is the model's choice for the arbitration and its count (log 2), the requests (log 3) and the record
`applyLog` (log 4). The status outputs then read 0, with `st_empty = 1`; which there are, and that SeekingHeader is
shown as 0, is D18's (log 24). -/
def Obligations.HardwareResetClearsBothGroups : Prop :=
  ∀ s : State, ∃ t, exec .reset s = .next t ∧
    t.dec.stage = .seekingHeader ∧ t.dec.hdrFill = 0 ∧ t.dec.evtFill = 0 ∧
    (∀ i : Fin 12, t.dec.hdrBuf[i] = 0) ∧ (∀ i : Fin 8, t.dec.evtBuf[i] = 0) ∧
    t.dec.expectedEvents = 0 ∧ t.dec.frameNumber = 0 ∧ t.dec.eventsRead = 0 ∧ t.dec.skippingFrame = false ∧
    t.stats = ⟨0, 0, 0, 0⟩ ∧ t.queue.wr = 0 ∧ t.queue.rd = 0 ∧ t.queue.empty = true ∧ t.queue.cnt = 0 ∧
    t.queue.live = [] ∧ t.status = ⟨0, 0, 0, 0, 0, 1, 0⟩ ∧
    t.magic = s.magic ∧ t.arb = s.arb ∧ t.arbCount = s.arbCount ∧ t.ports = s.ports ∧ t.applyLog = s.applyLog

/-- Derived from 10_state.md section 6: the state after reset holds the values of R40's table (those marked D are
D12's, log 16), and shows no request and nothing returned (the model's choice, logs 3 and 4). -/
def Obligations.ResetStateHoldsTheTableOfValues : Prop :=
  State.reset.dec = Decoder.cleared ∧ State.reset.stats = ⟨0, 0, 0, 0⟩ ∧ State.reset.queue.wr = 0 ∧
    State.reset.queue.rd = 0 ∧ State.reset.queue.empty = true ∧ State.reset.queue.cnt = 0 ∧
    State.reset.ports = [] ∧ State.reset.applyLog = []

/-- Derived from 10_state.md section 4: the state after reset meets the invariant. The reset values R40 marks D are
D12's (log 16), the zero bytes are D17's (log 17), the canonical form of the slots is the model's choice (log 5). -/
def Obligations.ResetStateMeetsTheInvariant : Prop := State.reset.Inv

/-- Derived from 10_state.md section 4 (R36 items 1 and 4, R37 items 1 to 3), section 2.1 (the zero bytes of R22 and
R23), section 2.4 (R29's counter that reads 0 for ever), and the canonical form of the slots, which is the model's
choice (log 5): every step keeps the invariant, from every state that meets it. Of R36 item 1 is D5's (R34, log 27)
and item 4 D6's (log 12). The zero bytes and the zeroed `expectedEvents` and `frameNumber` of R37 item 2 are D17's
(log 17), the empty frame of R37 item 3 is D11's (log 13), R29 is D14's (log 15). -/
def Obligations.EveryStepKeepsTheInvariant : Prop :=
  ∀ s t : State, s.Inv → step s = .next t → t.Inv

/-- Derived from 10_state.md sections 2.4 and 5: what the Stats may do. No instruction but RESET lowers or clears a
counter; each of the first three moves by at most one, modulo 2^32 (D9, log 15), and only in FEED and the wire rows;
`framesDropped` is never written (D14, log 15). The zeros RESET leaves are D12's (log 16); that a wire row counts
without testing its context is the model's choice (log 7). What a FEED does in a state that no run reaches is the
model's choice (log 8). -/
def Obligations.StatsOnlyCountUp : Prop :=
  ∀ (i : Instr) (s t : State), exec i s = .next t →
    (i = .reset ∧ t.stats = ⟨0, 0, 0, 0⟩) ∨
      (t.stats.framesDropped = s.stats.framesDropped ∧
        (t.stats.framesDecoded = s.stats.framesDecoded ∨ t.stats.framesDecoded = s.stats.framesDecoded + 1) ∧
        (t.stats.unsupportedChip = s.stats.unsupportedChip ∨
          t.stats.unsupportedChip = s.stats.unsupportedChip + 1) ∧
        (t.stats.writesForwarded = s.stats.writesForwarded ∨
          t.stats.writesForwarded = s.stats.writesForwarded + 1) ∧
        ((∃ a v d, i = .enq a v d) ∨ i = .dreset ∨ i = .qclear ∨ (∃ n, i = .apply n) ∨ (∃ ev, i = .push ev) ∨
            i = .frameReset → t.stats = s.stats))

/-! ## The decoder: one byte -/

/-- R101: in stage SeekingHeader, with fewer than 12 bytes held, FEED puts the byte at index `hdrFill`, counts it, and
touches nothing else; only when 12 bytes are then held is the window evaluated, as the row of the opcode table the
wire decoder reads from it. Before that nothing is examined. -/
def Obligations.FeedAccumulatesHeaderBytes : Prop :=
  ∀ (b : Byte) (s : State), s.dec.stage = .seekingHeader → s.dec.hdrFill.toNat ≤ 11 →
    ∃ u : State, u.dec.hdrFill.toNat = s.dec.hdrFill.toNat + 1 ∧
      (∀ i : Fin 12, u.dec.hdrBuf[i] = if i.val = s.dec.hdrFill.toNat then b else s.dec.hdrBuf[i]) ∧
      u = { s with dec := { s.dec with hdrBuf := u.dec.hdrBuf, hdrFill := u.dec.hdrFill } } ∧
      (s.dec.hdrFill.toNat < 11 → exec (.feed b) s = .next u ∧ absorbedBy (.feed b) s = []) ∧
      (s.dec.hdrFill.toNat = 11 → exec (.feed b) s = exec (decodeHeader s.magic (headerWord u.dec.hdrBuf)) u)

/-- R105: in stage ReadingEvents, with fewer than 8 bytes held, FEED puts the byte at index `evtFill`, counts it, and
touches nothing else; only when 8 bytes are then held is the event consumed, as the row of the opcode table the wire
decoder reads from it. No byte is examined before, and no magic search runs. -/
def Obligations.FeedAccumulatesEventBytes : Prop :=
  ∀ (b : Byte) (s : State), s.dec.stage = .readingEvents → s.dec.evtFill.toNat ≤ 7 →
    ∃ u : State, u.dec.evtFill.toNat = s.dec.evtFill.toNat + 1 ∧
      (∀ i : Fin 8, u.dec.evtBuf[i] = if i.val = s.dec.evtFill.toNat then b else s.dec.evtBuf[i]) ∧
      u = { s with dec := { s.dec with evtBuf := u.dec.evtBuf, evtFill := u.dec.evtFill } } ∧
      (s.dec.evtFill.toNat < 7 → exec (.feed b) s = .next u ∧ absorbedBy (.feed b) s = []) ∧
      (s.dec.evtFill.toNat = 7 →
        exec (.feed b) s = exec (decodeEvent s.dec.skippingFrame (eventWord u.dec.evtBuf)) u)

/-- Derived from 40_decoder.md section 1.1 (R102, R104; the clearings are D17's, log 17, the empty frame D11's, log
13): the byte that completes a window whose first four bytes are the magic word, little-endian, makes FEED accept the
header. The queue and the other counters do not change. The counters' width and wrap are D9's (log 15). -/
def Obligations.MagicWindowIsAccepted : Prop :=
  ∀ (b : Byte) (s : State), s.dec.stage = .seekingHeader → s.dec.hdrFill = 11 →
    le32 s.dec.hdrBuf[0] s.dec.hdrBuf[1] s.dec.hdrBuf[2] s.dec.hdrBuf[3] = s.magic →
    let eventCount := le32 s.dec.hdrBuf[4] s.dec.hdrBuf[5] s.dec.hdrBuf[6] s.dec.hdrBuf[7]
    exec (.feed b) s =
      .next { s with
        dec := {
          stage := .readingEvents
          hdrBuf := #v[0, 0, 0, 0, 0, 0, 0, 0, 0, 0, 0, 0]
          hdrFill := 0
          evtBuf := #v[0, 0, 0, 0, 0, 0, 0, 0]
          evtFill := 0
          expectedEvents := eventCount
          frameNumber := le32 s.dec.hdrBuf[8] s.dec.hdrBuf[9] s.dec.hdrBuf[10] b
          eventsRead := 0
          skippingFrame := decide (eventCount = 0) }
        stats := { s.stats with framesDecoded := s.stats.framesDecoded + 1 } } ∧
    absorbedBy (.feed b) s = if eventCount = 0 then [.emptyFrame] else []

/-- Derived from 40_decoder.md section 1.1 (R103; that byte 11 is zeroed, and what accepting a header clears, are
D17's, log 17; that the accepted header of an empty frame starts a skipping frame is R104's, by D11, log 13; the
counter's wrap is D9's, log 15). The byte that completes a window whose first word is not the magic word makes the
window slide: exactly the oldest byte is lost, the other eleven stay in order, `hdrFill` is 11, the stage stays
SeekingHeader, no counter moves, nothing is forwarded, `MagicMismatch` is absorbed. And a header that begins `k` bytes
into the stream after a reset is accepted by FEED number `k + 12`, when no window before it begins with the magic
word: after the first `k + 11` bytes the decoder still seeks and has counted nothing, and the next byte starts the
frame. -/
def Obligations.SlidingWindowResynchronises : Prop :=
  (∀ (b : Byte) (s : State), s.dec.stage = .seekingHeader → s.dec.hdrFill = 11 →
    le32 s.dec.hdrBuf[0] s.dec.hdrBuf[1] s.dec.hdrBuf[2] s.dec.hdrBuf[3] ≠ s.magic →
    absorbedBy (.feed b) s = [.magicMismatch] ∧
    ∃ t, exec (.feed b) s = .next t ∧ t.dec.hdrFill = 11 ∧
      (∀ i : Fin 10, t.dec.hdrBuf[i.val] = s.dec.hdrBuf[i.val + 1]) ∧ t.dec.hdrBuf[10] = b ∧ t.dec.hdrBuf[11] = 0 ∧
      t = { s with dec := { s.dec with hdrBuf := t.dec.hdrBuf, hdrFill := t.dec.hdrFill } }) ∧
  ∀ (s : State) (garbage : List Byte) (eventCount frameNumber : Word),
    s.dec = Decoder.cleared →
    let stream := garbage ++ headerBytes (encodeHeader s.magic eventCount frameNumber)
    (∀ j < garbage.length, ∀ b0 b1 b2 b3 rest, stream.drop j = b0 :: b1 :: b2 :: b3 :: rest →
      le32 b0 b1 b2 b3 ≠ s.magic) →
    (∃ u, feeds (stream.take (garbage.length + 11)) s = .next u ∧ u.dec.stage = .seekingHeader ∧
      u.stats = s.stats ∧ u.queue = s.queue) ∧
    feeds stream s =
      .next { s with
        dec := { Decoder.cleared with
          stage := .readingEvents
          expectedEvents := eventCount
          frameNumber := frameNumber
          skippingFrame := decide (eventCount = 0) }
        stats := { s.stats with framesDecoded := s.stats.framesDecoded + 1 } }

/-! ## The decoder: one event -/

/-- Derived from 40_decoder.md section 1.2 (R107; when the frame ends is R110's, and the place of that check is D11's,
log 13): the byte that completes an event whose chip id is not 0, in a frame not skipping: `UnsupportedChip` is
absorbed, `unsupportedChip` goes up by one, the event is not forwarded (queue and `writesForwarded` as before: events
of the frame forwarded before it stay). If it was the frame's last event the next frame starts clean; else the frame
is skipping from here on: no later byte of the frame, whatever its chip ids, moves a counter or the queue, the flag
stays until the frame's last byte, and then the next frame starts clean. The counters' width and wrap are D9's (log
15). -/
def Obligations.UnsupportedChipMarksTheFrame : Prop :=
  ∀ (b : Byte) (s : State), s.dec.stage = .readingEvents → s.dec.evtFill = 7 → s.dec.skippingFrame = false →
    s.dec.evtBuf[0] ≠ 0 →
    (absorbedBy (.feed b) s).head? = some .unsupportedChip ∧ pushedBy (.feed b) s = [] ∧
    ∃ t, exec (.feed b) s = .next t ∧ t.queue = s.queue ∧
      t.stats = { s.stats with unsupportedChip := s.stats.unsupportedChip + 1 } ∧
      t = { s with dec := t.dec, stats := t.stats } ∧
      (s.dec.expectedEvents.toNat ≤ (s.dec.eventsRead + 1).toNat →
        t.dec.stage = .seekingHeader ∧ t.dec.skippingFrame = false) ∧
      ((s.dec.eventsRead + 1).toNat < s.dec.expectedEvents.toNat →
        t.dec = { s.dec with
          evtBuf := t.dec.evtBuf, evtFill := 0, eventsRead := s.dec.eventsRead + 1, skippingFrame := true } ∧
        ∀ bytes : List Byte, bytes.length ≤ t.dec.bytesLeft →
          ∃ w, feeds bytes t = .next w ∧ w.stats = t.stats ∧ w.queue = t.queue ∧
            (bytes.length < t.dec.bytesLeft → w.dec.stage = .readingEvents ∧ w.dec.skippingFrame = true) ∧
            (bytes.length = t.dec.bytesLeft → w.dec.stage = .seekingHeader ∧ w.dec.skippingFrame = false))

/-- Derived from 40_decoder.md section 1.2 (R109; when the frame ends is R110's, and that an empty frame is skipping and
takes eight bytes is D11's, log 13): whatever the bytes of a skipping frame hold, the magic word or a foreign chip
id, feeding any run of them that does not go past the frame changes no counter but `eventsRead` and not the queue,
passes nothing to PUSH, and leaves the frame skipping until it ends. "do not forward any writes from that frame once
skipping begins". The two premises on `evtFill` and `eventsRead` are those of a frame not yet over (R37). -/
def Obligations.SkippingFrameForwardsNothing : Prop :=
  ∀ (s : State) (bytes : List Byte), s.dec.stage = .readingEvents → s.dec.skippingFrame = true →
    s.dec.evtFill.toNat ≤ 7 → s.dec.eventsRead.toNat < max s.dec.expectedEvents.toNat 1 →
    bytes.length ≤ s.dec.bytesLeft →
    pushedByAll (bytes.map .feed) s = [] ∧
    ∃ t, feeds bytes s = .next t ∧ t = { s with dec := t.dec } ∧
      (bytes.length < s.dec.bytesLeft →
        t.dec = { s.dec with evtBuf := t.dec.evtBuf, evtFill := t.dec.evtFill, eventsRead := t.dec.eventsRead } ∧
          t.dec.eventsRead.toNat = s.dec.eventsRead.toNat + (s.dec.evtFill.toNat + bytes.length) / 8) ∧
      (bytes.length = s.dec.bytesLeft → t.dec.stage = .seekingHeader ∧ t.dec.skippingFrame = false)

/-- Derived from 40_decoder.md section 1.2 (R106, R108): the byte that completes an event of chip 0, in a frame not
skipping, passes `(address mod 32, value, delay)` to PUSH and counts it in `writesForwarded`, also when the full queue
drops it (then `QueueFull` is absorbed first). The truncation is D10's (30_encoding.md section 5, R75, log 14). `pad`
has no effect. The counters' width and wrap are D9's (log 15). -/
def Obligations.SupportedEventIsForwarded : Prop :=
  ∀ (b : Byte) (s : State), s.dec.stage = .readingEvents → s.dec.evtFill = 7 → s.dec.skippingFrame = false →
    s.dec.evtBuf[0] = 0 →
    ∃ ev : RegisterWriteEvent, ev.register.toNat = s.dec.evtBuf[1].toNat % 32 ∧ ev.value = s.dec.evtBuf[2] ∧
      ev.delayCycles = le32 s.dec.evtBuf[4] s.dec.evtBuf[5] s.dec.evtBuf[6] b ∧ pushedBy (.feed b) s = [ev] ∧
      (s.queue.isFull = true → (absorbedBy (.feed b) s).head? = some .queueFull) ∧
      ∃ t p, exec (.feed b) s = .next t ∧ exec (.push ev) s = .next p ∧ t.queue = p.queue ∧
        t.stats = { s.stats with writesForwarded := s.stats.writesForwarded + 1 } ∧
        t = { s with dec := t.dec, stats := t.stats, queue := t.queue }

/-- Derived from 40_decoder.md section 1.2 (R110; the place of the check is D11's, log 13; R111, and the zeroed
buffers and counts D17's, log 17): the byte that completes an event counts it, whatever it is; when the count reaches
the declared number, or passes it, every decoder element but the Stats is cleared in the same FEED; else the frame
goes on, its other elements as they were. -/
def Obligations.EveryEventIsCountedAndChecked : Prop :=
  ∀ (b : Byte) (s : State), s.dec.stage = .readingEvents → s.dec.evtFill = 7 →
    ∃ t, exec (.feed b) s = .next t ∧
      (s.dec.expectedEvents.toNat ≤ (s.dec.eventsRead + 1).toNat → t.dec = Decoder.cleared) ∧
      ((s.dec.eventsRead + 1).toNat < s.dec.expectedEvents.toNat →
        t.dec = { s.dec with
          evtBuf := #v[0, 0, 0, 0, 0, 0, 0, 0], evtFill := 0, eventsRead := s.dec.eventsRead + 1,
          skippingFrame := s.dec.skippingFrame || (s.dec.evtBuf[0] != 0) })

/-- Derived from 30_encoding.md section 6 (R78) and 40_decoder.md sections 1.1 (R104), 1.2 (R110) and 2 (R111): a
decoder in a frame stays in it for exactly the bytes the declared count gives, eight per event, whatever they contain,
and is cleared by the last of them. The eight bytes of an empty frame and the place of the end-of-frame check are
D11's (log 13); that the clearing zeroes every element but the Stats is D17's in part (log 17). -/
def Obligations.FrameTakesItsDeclaredBytes : Prop :=
  ∀ (s : State) (bytes : List Byte), s.dec.Inv → s.dec.stage = .readingEvents → bytes.length ≤ s.dec.bytesLeft →
    ∃ t, feeds bytes s = .next t ∧
      (bytes.length < s.dec.bytesLeft →
        t.dec.stage = .readingEvents ∧ t.dec.expectedEvents = s.dec.expectedEvents ∧
          t.dec.bytesLeft = s.dec.bytesLeft - bytes.length) ∧
      (bytes.length = s.dec.bytesLeft → t.dec = Decoder.cleared)

/-- Derived from 40_decoder.md section 1.1 and 95_test_vectors.md V5 (R104, D11, the spec's least certain decision,
log 13): an empty frame costs 20 bytes. From a cleared decoder, a header with `eventCount = 0` and any eight bytes
leave the decoder cleared, one more frame decoded, nothing forwarded. The clearing (40_decoder.md section 2, R111) is
D17's in part (log 17); the counter's wrap is D9's (log 15). -/
def Obligations.EmptyFrameCostsTwentyBytes : Prop :=
  ∀ (s : State) (frameNumber : Word) (filler : List Byte), s.dec = Decoder.cleared → filler.length = 8 →
    feeds (headerBytes (encodeHeader s.magic 0 frameNumber) ++ filler) s =
      .next { s with stats := { s.stats with framesDecoded := s.stats.framesDecoded + 1 } }

/-- Derived from 95_test_vectors.md S2, 20_memory.md section 6 (R61 item 2) and 30_encoding.md sections 2 and 5 (R71,
R75): a whole frame. From a cleared decoder, the bytes of a frame of one or more events of chip 0 forward exactly
those events, in order, to PUSH (41_queue_scheduler.md section 1, R130), and leave the decoder cleared;
`framesDecoded` counts the header (40_decoder.md section 1.1, R102) and `writesForwarded` the events (section 1.2,
R108), and the last event ends the frame (sections 1.2 and 2, R110, R111). The truncation of the forwarded addresses
is D10's (log 14), the place of the end-of-frame check D11's (log 13), the wrap of the counters D9's (log 15), the
clearing D17's in part (log 17). -/
def Obligations.WholeFrameForwardsItsEventsInOrder : Prop :=
  ∀ (s : State) (frameNumber : Word) (events : List (Byte × Byte × Byte × Word)),
    s.dec = Decoder.cleared → 0 < events.length → events.length < 2 ^ 32 →
    let items := events.map fun e => StreamItem.evt 0 e.1 e.2.1 e.2.2.1 e.2.2.2
    let pushed := events.map fun e => eventOf e.1 e.2.1 e.2.2.2
    feeds (assemble s.magic (frame frameNumber items)) s =
      .next { s with
        stats := { s.stats with
          framesDecoded := s.stats.framesDecoded + 1
          writesForwarded := s.stats.writesForwarded + BitVec.ofNat 32 events.length }
        queue := pushed.foldl Queue.push s.queue }

/-- Derived from 40_decoder.md section 4 (R113) and 20_memory.md section 7 (R63): the decoder and its counters do not
depend on the queue, on anything APPLY returned, or on the arbitration. What a FEED does in a state that no run
reaches is the model's choice (log 8). -/
def Obligations.DecodingIsIndependentOfTheQueue : Prop :=
  ∀ (s s' : State) (bytes : List Byte), s.dec = s'.dec → s.stats = s'.stats → s.magic = s'.magic →
    ∃ t t', feeds bytes s = .next t ∧ feeds bytes s' = .next t' ∧ t.dec = t'.dec ∧ t.stats = t'.stats ∧
      pushedByAll (bytes.map .feed) s = pushedByAll (bytes.map .feed) s'

/-- Derived from 40_decoder.md section 4 (R114) and 20_memory.md section 7 (R63): how the bytes are grouped, and
what the two contexts do between them, does not matter. Cut a byte sequence at any places and put any ENQ, QCLEAR and
APPLY operations there: the decoder, the Stats and the events forwarded out of the stream are those of the bytes
alone. That an ENQ in between leaves the Stats is D15's (42_host_and_renderer.md section 1, R160, log 18). So a frame
of one or more events of chip 0 that arrives in pieces still forwards exactly its events, in order (40_decoder.md
section 1.2, R108), leaves the decoder cleared (sections 1.2 and 2, R110, R111) and is counted once (section 1.1,
R102). The truncation of the forwarded addresses is D10's (log 14), the place of the end-of-frame check D11's (log
13), the wrap of the counters D9's (log 15), the clearing D17's in part (log 17). What a FEED does in a state that no
run reaches is the model's choice (log 8). -/
def Obligations.ChunkingDoesNotMatter : Prop :=
  (∀ (ops : List Instr) (s : State),
    (∀ i ∈ ops, (∃ b, i = .feed b) ∨ (∃ a v d, i = .enq a v d) ∨ i = .qclear ∨ ∃ n, i = .apply n) →
    ∃ t u, execAll ops s = .next t ∧ feeds (streamOf ops) s = .next u ∧ t.dec = u.dec ∧ t.stats = u.stats ∧
      decodedByAll ops s = pushedByAll ((streamOf ops).map .feed) s) ∧
  ∀ (ops : List Instr) (s : State) (frameNumber : Word) (events : List (Byte × Byte × Byte × Word)),
    (∀ i ∈ ops, (∃ b, i = .feed b) ∨ (∃ a v d, i = .enq a v d) ∨ i = .qclear ∨ ∃ n, i = .apply n) →
    s.dec = Decoder.cleared → 0 < events.length → events.length < 2 ^ 32 →
    streamOf ops =
      assemble s.magic (frame frameNumber (events.map fun e => StreamItem.evt 0 e.1 e.2.1 e.2.2.1 e.2.2.2)) →
    ∃ t, execAll ops s = .next t ∧ t.dec = Decoder.cleared ∧
      t.stats = { s.stats with
        framesDecoded := s.stats.framesDecoded + 1
        writesForwarded := s.stats.writesForwarded + BitVec.ofNat 32 events.length } ∧
      decodedByAll ops s = events.map fun e => eventOf e.1 e.2.1 e.2.2.2

/-- Derived from 20_memory.md section 9 (R66): no byte sequence moves or clears what the queue holds: the read index
stays and the live events stay at the front of the live events. What a FEED does in a state that no run reaches is the
model's choice (log 8). -/
def Obligations.BytesNeverDisturbTheQueue : Prop :=
  ∀ (s t : State) (bytes : List Byte), s.queue.Inv → feeds bytes s = .next t →
    t.queue.rd = s.queue.rd ∧ s.queue.live <+: t.queue.live

/-- Derived from 40_decoder.md sections 2 and 3 (R111, R112; D13, log 19, and D17, log 17): DRESET and FrameReset put
every decoder element but the Stats at its reset value and touch nothing else, whatever they held; so each is
idempotent. -/
def Obligations.DecoderResetKeepsStatsAndQueue : Prop :=
  ∀ s : State, ∃ t, exec .dreset s = .next t ∧ exec .frameReset s = .next t ∧ exec .dreset t = .next t ∧
    t = { s with dec := {
      stage := .seekingHeader
      hdrBuf := #v[0, 0, 0, 0, 0, 0, 0, 0, 0, 0, 0, 0]
      hdrFill := 0
      evtBuf := #v[0, 0, 0, 0, 0, 0, 0, 0]
      evtFill := 0
      expectedEvents := 0
      frameNumber := 0
      eventsRead := 0
      skippingFrame := false } }

/-! ## The wire rows -/

/-- Derived from 40_decoder.md sections 1.1, 1.2 and 2: the results of the five wire rows as instructions, in any
state. HDR and SLIDE touch the decoder, and HDR one counter (R102, R103, R104); EVT_WRITE pushes and counts (R108),
EVT_UNSUP marks and counts (R107), EVT_SKIP only counts the event (R109); each of the three takes the event out of the
buffer (R106) and ends the frame when the count is reached or passed (R110, R111). `pad`, and the fields of a skipped
or unsupported event, have no effect. The truncation of the address is D10's (30_encoding.md section 5, R75, log 14);
that an empty frame goes on, and the place of the end-of-frame check, are D11's (log 13); the zeroed buffers, counts
and `frameNumber` are D17's (log 17); the wrap of the counters is D9's (log 15). That a wire row does not test its
context again is the model's choice (log 7). -/
def Obligations.WireRowsComplete : Prop :=
  ∀ (s : State) (word eventCount frameNumber : Word) (chipId address value pad : Byte) (delay : Word),
    let counted (skipping : Bool) : Decoder :=
      if s.dec.expectedEvents.toNat ≤ (s.dec.eventsRead + 1).toNat then Decoder.cleared
      else { s.dec with
        evtBuf := #v[0, 0, 0, 0, 0, 0, 0, 0], evtFill := 0, eventsRead := s.dec.eventsRead + 1,
        skippingFrame := skipping }
    exec (.hdr eventCount frameNumber) s =
      .next { s with
        dec := { Decoder.cleared with
          stage := .readingEvents, expectedEvents := eventCount, frameNumber := frameNumber,
          skippingFrame := decide (eventCount = 0) }
        stats := { s.stats with framesDecoded := s.stats.framesDecoded + 1 } } ∧
    (∃ t, exec (.slide word eventCount frameNumber) s = .next t ∧ t.dec.hdrFill = 11 ∧
      (∀ i : Fin 11, t.dec.hdrBuf[i.val] = s.dec.hdrBuf[i.val + 1]) ∧ t.dec.hdrBuf[11] = 0 ∧
      t = { s with dec := { s.dec with hdrBuf := t.dec.hdrBuf, hdrFill := t.dec.hdrFill } }) ∧
    (∃ p, exec (.push { register := address.extractLsb' 0 5, value := value, delayCycles := delay }) s = .next p ∧
      exec (.evtWrite address value pad delay) s =
        .next { s with
          dec := counted s.dec.skippingFrame
          stats := { s.stats with writesForwarded := s.stats.writesForwarded + 1 }
          queue := p.queue }) ∧
    exec (.evtUnsup chipId address value pad delay) s =
      .next { s with
        dec := counted true
        stats := { s.stats with unsupportedChip := s.stats.unsupportedChip + 1 } } ∧
    exec (.evtSkip chipId address value pad delay) s = .next { s with dec := counted s.dec.skippingFrame }

/-! ## The queue: PUSH and ENQ -/

/-- R130, in full: on a full queue PUSH changes nothing and absorbs `QueueFull`; else it writes exactly the slot at
`wr`, advances `wr` by one modulo 256, and, only when the queue was empty, sets the countdown to the event's delay
and clears the flag. It never writes `rd`, and touches nothing outside the queue. Premise: the slots are in
canonical form, which every step keeps. -/
def Obligations.PushWritesOneSlotOrNothing : Prop :=
  ∀ (ev : RegisterWriteEvent) (s : State), s.queue.buf.wf = true →
    ∃ t, exec (.push ev) s = .next t ∧ t = { s with queue := t.queue } ∧
      (s.queue.wr + 1 = s.queue.rd → t = s ∧ absorbedBy (.push ev) s = [.queueFull]) ∧
      (s.queue.wr + 1 ≠ s.queue.rd →
        absorbedBy (.push ev) s = [] ∧ t.queue.wr = s.queue.wr + 1 ∧ t.queue.rd = s.queue.rd ∧
        (∀ i, t.queue.buf.read i = if i = s.queue.wr then ev else s.queue.buf.read i) ∧
        t.queue.empty = false ∧
        t.queue.cnt = (if s.queue.empty then ev.delayCycles else s.queue.cnt))

/-- R131: the queue is full exactly when 255 events are live, then nothing at all changes and `QueueFull` is absorbed
("When full, new events are silently dropped"); and starting from an empty queue with no APPLY in between, pushes
number 1 to 255 are kept, in order, and all later ones dropped. -/
def Obligations.FullQueueDropsSilently : Prop :=
  (∀ (ev : RegisterWriteEvent) (s : State), s.queue.liveCount = 255 →
    exec (.push ev) s = .next s ∧ absorbedBy (.push ev) s = [.queueFull]) ∧
  (∀ s : State, s.queue.wr + 1 = s.queue.rd ↔ s.queue.liveCount = 255) ∧
  ∀ (events : List RegisterWriteEvent) (s : State), s.queue.Inv → s.queue.empty = true →
    ∃ t, execAll (events.map .push) s = .next t ∧ t.queue.live = events.take 255 ∧
      t = { s with queue := t.queue }

/-- Derived from 10_state.md section 4 (R36 item 6): a kept event becomes the last of the live events, the others stay
as they were, in order. -/
def Obligations.PushAppendsToTheLiveEvents : Prop :=
  ∀ (ev : RegisterWriteEvent) (s : State), s.queue.Inv → s.queue.liveCount < 255 →
    ∃ t, exec (.push ev) s = .next t ∧ t.queue.live = s.queue.live ++ [ev]

/-- Derived from 42_host_and_renderer.md section 1 (R160; widths, truncation and silence of the Stats are D15's, log
18): ENQ is PUSH of the event with the address modulo 32; the decoder, the Stats and everything else outside the queue
stay. -/
def Obligations.EnqueueIsPush : Prop :=
  ∀ (a v : Byte) (d : Word) (s : State),
    ∃ (ev : RegisterWriteEvent) (t : State), ev.register.toNat = a.toNat % 32 ∧ ev.value = v ∧ ev.delayCycles = d ∧
      exec (.enq a v d) s = .next t ∧ exec (.push ev) s = .next t ∧ t = { s with queue := t.queue } ∧
      absorbedBy (.enq a v d) s = absorbedBy (.push ev) s

/-! ## The queue: APPLY and QCLEAR -/

/-- Derived from 41_queue_scheduler.md sections 2 and 4 (R134's loop, with R135, R136 and R137): APPLY on a queue with
live events, by its first pass, in every state. Not due after the decrement: only the countdown moves (R134, R135).
The last live event due: it is returned, the queue is empty, the countdown 0 and the overshoot gone (R137). The head
due with more behind it: it is returned first, the new head's delay is added to what the decrement left (R136), and
the rest is what APPLY 0 does from there. Nothing outside the queue changes. The wrap of the decrement and of the
carry and the signed due test are D7's, the operand's type is D8's (R142, log 11). That the returned list is shown as
the newest entry of `applyLog` is the model's choice (log 4). -/
def Obligations.ApplyFollowsItsLoop : Prop :=
  ∀ (n : Word) (s : State), s.queue.empty = false →
    (0 < (s.queue.cnt - n).toInt →
      exec (.apply n) s =
        .next { s with queue := { s.queue with cnt := s.queue.cnt - n }, applyLog := s.applyLog ++ [[]] }) ∧
    ((s.queue.cnt - n).toInt ≤ 0 → s.queue.rd + 1 = s.queue.wr →
      exec (.apply n) s =
        .next { s with
          queue := { s.queue with rd := s.queue.rd + 1, empty := true, cnt := 0 }
          applyLog := s.applyLog ++ [[writeOf (s.queue.buf.read s.queue.rd)]] }) ∧
    ((s.queue.cnt - n).toInt ≤ 0 → s.queue.rd + 1 ≠ s.queue.wr →
      ∃ (rest : List EngineWrite) (t : State),
        exec (.apply 0)
          { s with queue := { s.queue with
              rd := s.queue.rd + 1
              cnt := s.queue.cnt - n + (s.queue.buf.read (s.queue.rd + 1)).delayCycles } } =
          .next { t with applyLog := s.applyLog ++ [rest] } ∧
        exec (.apply n) s =
          .next { t with applyLog := s.applyLog ++ [writeOf (s.queue.buf.read s.queue.rd) :: rest] })

/-- Derived from 41_queue_scheduler.md section 2 (R135, R138, R139; the countdown of an empty queue is D6's, log 12):
in every state APPLY ends with the queue empty and the countdown 0, or with a countdown above 0; it returns one list,
of at most 255 writes when the flag agrees with the indices; on an empty queue it returns nothing and only the
countdown is written, with 0. The 32-bit wrap and the signed test are D7's, the operand's type D8's (R142, log 11).
The returned list is read from `applyLog`, the model's record (log 4). -/
def Obligations.ApplyLeavesNothingDue : Prop :=
  ∀ (n : Word) (s : State),
    ∃ t out, exec (.apply n) s = .next t ∧ t.applyLog = s.applyLog ++ [out] ∧
      ((t.queue.empty = true ∧ t.queue.cnt = 0) ∨ (t.queue.empty = false ∧ 0 < t.queue.cnt.toInt)) ∧
      ((s.queue.empty = true ↔ s.queue.rd = s.queue.wr) → out.length ≤ 255) ∧
      (s.queue.empty = true →
        t = { s with queue := { s.queue with cnt := 0 }, applyLog := s.applyLog ++ [[]] })

/-- Derived from 41_queue_scheduler.md section 2 (R139, R135): APPLY returns an initial run of the live events, in
order, and the rest stays live: nothing is reordered, skipped, applied twice or invented. The slots and `wr` stay. The
returned list is read from `applyLog`, the model's record (log 4). -/
def Obligations.ApplyIsFifo : Prop :=
  ∀ (n : Word) (s : State), s.queue.Inv →
    ∃ t m, exec (.apply n) s = .next t ∧ m ≤ s.queue.live.length ∧
      t.applyLog = s.applyLog ++ [(s.queue.live.take m).map writeOf] ∧ t.queue.live = s.queue.live.drop m ∧
      t.queue.buf = s.queue.buf ∧ t.queue.wr = s.queue.wr ∧
      t = { s with queue := t.queue, applyLog := t.applyLog }

/-- Derived from 10_state.md section 4 (R36 item 5): an APPLY that leaves the queue not empty leaves the countdown at
what it was, less the operand, plus the delay of every event that has become head meanwhile, modulo 2^32. The
arithmetic modulo 2^32 is D7's, the operand's type D8's (R142, log 11). -/
def Obligations.CountdownAccountsForEveryDelay : Prop :=
  ∀ (n : Word) (s : State), s.queue.Inv →
    ∃ t m, exec (.apply n) s = .next t ∧ t.queue.live = s.queue.live.drop m ∧
      (t.queue.empty = false →
        t.queue.cnt = ((s.queue.live.drop 1).take m).foldl (fun c ev => c + ev.delayCycles) (s.queue.cnt - n))

/-- Derived from 41_queue_scheduler.md section 4 (R141, R142 item 3): inside the no-wrap range APPLY `n` applies
exactly the live events whose due point, the sum of the delays from the countdown on, is at most `n`; the countdown
left is the next due point less `n`, or 0 when none is left. The no-wrap range is R142's, whose arithmetic is D7's and
D8's (log 11). The returned list is read from `applyLog`, the model's record (log 4). -/
def Obligations.ApplyMeetsTheSchedule : Prop :=
  ∀ (n : Word) (s : State), s.queue.Inv → s.queue.noWrap → n.toNat < 2 ^ 31 →
    let k := s.queue.dues.countP (· ≤ n.toNat)
    ∃ t, exec (.apply n) s = .next t ∧ t.applyLog = s.applyLog ++ [(s.queue.live.take k).map writeOf] ∧
      t.queue.live = s.queue.live.drop k ∧ t.queue.dues = (s.queue.dues.drop k).map (· - n.toNat) ∧
      t.queue.cnt.toNat = (s.queue.dues.drop k).head?.getD n.toNat - n.toNat ∧ t.queue.noWrap

/-- Derived from 41_queue_scheduler.md section 2 and 95_test_vectors.md S6 (R139): inside the no-wrap range it does
not matter how the elapsed cycles are split: `APPLY a` then `APPLY b` leaves the same queue as `APPLY (a + b)` and
makes the same writes in the same order. The no-wrap range is R142's (section 4), whose arithmetic is D7's and D8's
(log 11). The returned lists are read from `applyLog`, the model's record (log 4). -/
def Obligations.SplittingCyclesDoesNotMatter : Prop :=
  ∀ (a b : Word) (s : State), s.queue.Inv → s.queue.noWrap → a.toNat + b.toNat < 2 ^ 31 →
    ∃ (t : State) (out out' : List EngineWrite), execAll [.apply a, .apply b] s = .next { t with applyLog := s.applyLog ++ [out, out'] } ∧
      exec (.apply (a + b)) s = .next { t with applyLog := s.applyLog ++ [out ++ out'] }

/-- Derived from 42_host_and_renderer.md section 2 (R168): with a constant operand `n ≥ 1` and nothing pushed
meanwhile, the live event due `D` cycles from now is applied by APPLY number `max 1 ⌈D / n⌉`. The no-wrap range is
that of 41_queue_scheduler.md section 4 (R142), whose arithmetic is D7's and D8's (log 11). The returned lists are
read from `applyLog`, the model's record (log 4). -/
def Obligations.RenderQuantisesToTheOperand : Prop :=
  ∀ (n : Word) (k : Nat) (s : State), s.queue.Inv → s.queue.noWrap → 0 < n.toNat → k * n.toNat < 2 ^ 31 →
    ∃ t outs, render k n s = .next t ∧ t.applyLog = s.applyLog ++ outs ∧ outs.length = k ∧
      ∀ j < k, outs[j]? =
        some (((s.queue.live.zip s.queue.dues).filter fun e =>
          max 1 ((e.2 + n.toNat - 1) / n.toNat) == j + 1).map fun e => writeOf e.1)

/-- Derived from 41_queue_scheduler.md section 4 (R142 item 1, D7, log 11): a delay of 2^31 or more seeds a negative
countdown: the event is applied by the next `APPLY n` exactly when `n ≤ delay - 2^31` or `n ≥ delay`. The returned
list is read from `applyLog`, the model's record (log 4). -/
def Obligations.DelayWithBit31IsNegative : Prop :=
  ∀ (ev : RegisterWriteEvent) (n : Word) (s : State), s.queue.Inv → s.queue.empty = true →
    2 ^ 31 ≤ ev.delayCycles.toNat →
    ∃ t, execAll [.push ev, .apply n] s = .next t ∧
      t.applyLog = s.applyLog ++
        [if n.toNat ≤ ev.delayCycles.toNat - 2 ^ 31 ∨ ev.delayCycles.toNat ≤ n.toNat then [writeOf ev] else []]

/-- Derived from 41_queue_scheduler.md section 1 (R132, R133): idle time is not charged to the event that ends it, and a
push behind a live event does not touch the countdown. -/
def Obligations.IdleTimeIsNotCharged : Prop :=
  (∀ (ev : RegisterWriteEvent) (n : Word) (s : State), s.queue.Inv → s.queue.empty = true →
    ∃ t, execAll [.apply n, .push ev] s = .next t ∧ t.queue.empty = false ∧ t.queue.cnt = ev.delayCycles ∧
      t.queue.live = [ev]) ∧
  ∀ (ev : RegisterWriteEvent) (s : State), s.queue.empty = false →
    ∃ t, exec (.push ev) s = .next t ∧ t.queue.empty = false ∧ t.queue.cnt = s.queue.cnt

/-- Derived from 42_host_and_renderer.md section 1 (R164, D18, log 24): when the queue is not empty and the countdown
is above 0, `st_cnt` is the number of cycles an APPLY must supply for the head to be applied. The countdown's
arithmetic is D7's and D8's (log 11), the returned list is read from `applyLog`, the model's record (log 4). -/
def Obligations.StatusCountdownTellsTheCyclesToGo : Prop :=
  ∀ (n : Word) (s : State), s.queue.Inv → s.status.empty = 0 → 0 < s.status.cnt.toInt → n.toNat < 2 ^ 31 →
    ∃ t out, exec (.apply n) s = .next t ∧ t.applyLog = s.applyLog ++ [out] ∧
      (out ≠ [] ↔ s.status.cnt.toNat ≤ n.toNat)

/-- Derived from 41_queue_scheduler.md section 3 (R140; the index values are D16's, log 17): QCLEAR empties the queue
and zeroes the countdown, leaves the slots and everything outside the queue, and what was pending is never applied: a
following APPLY returns nothing. The countdown that APPLY leaves is D6's (log 12), the returned list is read from
`applyLog`, the model's record (log 4). -/
def Obligations.ClearDiscardsWhatIsPending : Prop :=
  ∀ (n : Word) (s : State), ∃ t,
    exec .qclear s = .next t ∧
      t = { s with queue := { buf := s.queue.buf, wr := 0, rd := 0, empty := true, cnt := 0 } } ∧
      t.queue.live = [] ∧ exec (.apply n) t = .next { t with applyLog := s.applyLog ++ [[]] }

/-- Derived from 42_host_and_renderer.md section 1 and 95_test_vectors.md S7 (R161; D13, log 19; the index values and
zeroed elements are D16's and D17's, log 17): the host's reset, DRESET then QCLEAR, clears the decoder and the queue
and keeps the Stats and the slots; the order of the two does not matter. -/
def Obligations.HostResetKeepsStats : Prop :=
  ∀ s : State, hostReset s = execAll [.qclear, .dreset] s ∧
    hostReset s = .next { s with
      dec := Decoder.cleared, queue := { s.queue with wr := 0, rd := 0, empty := true, cnt := 0 } }

/-! ## The whole machine -/

/-- Derived from 10_state.md section 5 (R38, the ownership table). APPLY writes `rd`, `empty` only from 0 to 1, and
`cnt`; never the decoder group, the slots or `wr`. FEED, ENQ and PUSH write a slot only at `wr` and only when the
queue is not full, `wr` only forward by one, `empty` only from 1 to 0, `cnt` only when the queue was empty; never `rd`
(who writes `empty` is D5's, log 27; the premise is the canonical form of the slots, the model's choice, log 5). ENQ
and PUSH do not write the decoder group; that ENQ leaves the Stats is D15's (log 18). DRESET writes only the decoder
group, and of it not the Stats: that is R112's, by D13 (40_decoder.md section 3, log 19). QCLEAR writes only the
queue, `empty` to 1, `cnt` to 0, the indices, no slot (41_queue_scheduler.md section 3, R140; that the slots stay is
D16's, log 17). RESET writes everything: what it leaves does not depend on what was there (of the slots no clause
speaks); its values for the Stats and the indices are D12's (log 16). The wire rows are WireRowsComplete's. What a
FEED does in a state that no run reaches is the model's choice (log 8). -/
def Obligations.EachSideWritesOnlyItsOwn : Prop :=
  (∀ (n : Word) (s t : State), exec (.apply n) s = .next t →
    t.dec = s.dec ∧ t.stats = s.stats ∧ t.queue.buf = s.queue.buf ∧ t.queue.wr = s.queue.wr ∧
      (s.queue.empty = true → t.queue.empty = true)) ∧
  (∀ (i : Instr) (s t : State), (∃ b, i = .feed b) ∨ (∃ a v d, i = .enq a v d) ∨ (∃ ev, i = .push ev) →
    s.queue.buf.wf = true → exec i s = .next t →
    t.queue.rd = s.queue.rd ∧
      (∀ k, k ≠ s.queue.wr ∨ s.queue.isFull = true → t.queue.buf.read k = s.queue.buf.read k) ∧
      (t.queue.wr = s.queue.wr ∨ (t.queue.wr = s.queue.wr + 1 ∧ s.queue.isFull = false)) ∧
      (s.queue.empty = false → t.queue.empty = false ∧ t.queue.cnt = s.queue.cnt)) ∧
  (∀ (i : Instr) (s t : State), (∃ a v d, i = .enq a v d) ∨ (∃ ev, i = .push ev) → exec i s = .next t →
    t.dec = s.dec ∧ t.stats = s.stats) ∧
  (∀ s t : State, exec .dreset s = .next t → t.stats = s.stats ∧ t.queue = s.queue) ∧
  (∀ s t : State, exec .qclear s = .next t →
    t.dec = s.dec ∧ t.stats = s.stats ∧ t.queue.buf = s.queue.buf ∧ t.queue.empty = true ∧ t.queue.cnt = 0) ∧
  ∀ s s' t t' : State, exec .reset s = .next t → exec .reset s' = .next t' →
    t.dec = t'.dec ∧ t.stats = t'.stats ∧ t.queue.wr = t'.queue.wr ∧ t.queue.rd = t'.queue.rd ∧
      t.queue.empty = t'.queue.empty ∧ t.queue.cnt = t'.queue.cnt

/-- Derived from 00_scope.md section 3 and 10_state.md section 7 (R4, R41): MAGIC and ARB are fixed when the block is
built; no step writes them. Every instruction leaves the requests still to be presented as they are (that they are
state, and that RESET keeps them, is the model's choice, log 3). And only APPLY shows anything on the engine write
port (R84): every other instruction leaves what was returned as it is, and no step takes any of it back (the record,
and that RESET keeps it, is the model's choice, log 4). -/
def Obligations.ParametersAreNeverWritten : Prop :=
  (∀ (i : Instr) (s t : State), exec i s = .next t →
    t.magic = s.magic ∧ t.arb = s.arb ∧ t.ports = s.ports ∧
      ((∀ n, i ≠ .apply n) → t.applyLog = s.applyLog)) ∧
  ∀ s t : State, step s = .next t → t.magic = s.magic ∧ t.arb = s.arb ∧ s.applyLog <+: t.applyLog

/-- Derived from 41_queue_scheduler.md section 4 (R143): over any sequence of operations, from any state whose queue
meets the invariant, the writes the engine sees, followed by those still queued, are in order a sublist of what was
queued before and the events passed to PUSH: nothing is reordered, duplicated or invented, only dropped or discarded.
What the engine sees is read from `applyLog`, the model's record, which RESET keeps (log 4). What a FEED does in a
state that no run reaches is the model's choice (log 8). -/
def Obligations.EngineSeesPushesInOrder : Prop :=
  ∀ (ops : List Instr) (s : State), s.queue.Inv →
    ∃ t outs, execAll ops s = .next t ∧ t.applyLog = s.applyLog ++ outs ∧ t.queue.Inv ∧
      (outs.flatten ++ t.queue.live.map writeOf).Sublist ((s.queue.live ++ pushedByAll ops s).map writeOf)

/-- Derived from 41_queue_scheduler.md section 4 (R143, last sentence): with no drop, no QCLEAR and no RESET nothing
is lost either: while the pushes fit, the engine's writes followed by those still queued are exactly what was queued
and pushed. What the engine sees is read from `applyLog`, the model's record (log 4). What a FEED does in a state that
no run reaches is the model's choice (log 8). -/
def Obligations.NothingIsLostWithoutAClear : Prop :=
  ∀ (ops : List Instr) (s : State), s.queue.Inv → .qclear ∉ ops → .reset ∉ ops →
    s.queue.live.length + (pushedByAll ops s).length ≤ 255 →
    ∃ t outs, execAll ops s = .next t ∧ t.applyLog = s.applyLog ++ outs ∧
      outs.flatten ++ t.queue.live.map writeOf = (s.queue.live ++ pushedByAll ops s).map writeOf

/-- Derived from 10_state.md section 7 (R42): states that agree on everything but `frameNumber`, buffer bytes at or
above the fill counts and slots that are not live stay so, step by step, and show the same status outputs and returned
lists: none of the three ever matters. So nothing rests on what the model lets an unwritten slot read as (log 5). What
a FEED does in a state that no run reaches is the model's choice (log 8). The arbitration and its count (log 2), the
requests (log 3) and the record of returned lists (log 4) are the model's own fields, which such states share; the
status outputs are D18's (log 24). -/
def Obligations.DeadStateNeverMatters : Prop :=
  ∀ s s' : State, s.queue.Inv → s'.queue.Inv → s.Alike s' →
    s.status = s'.status ∧
    ∃ t t', step s = .next t ∧ step s' = .next t' ∧ t.Alike t' ∧ t.applyLog = t'.applyLog

/-- Derived from 60_exceptions.md sections 2 and 4 (R186, R188): in a state that meets the decoder's invariant a FEED
absorbs at most one condition, and X5 exactly when it takes the last filler byte of an empty frame. That an empty
frame takes eight filler bytes, and that the check runs right after the count, is D11's, the spec's least certain
decision (log 13). The conditions are functions of the operation and the state, stored nowhere, by the model's choice
(log 21). -/
def Obligations.FeedAbsorbsAtMostOneCondition : Prop :=
  ∀ (b : Byte) (s : State), s.dec.Inv →
    (absorbedBy (.feed b) s).length ≤ 1 ∧
      (Condition.eventOverrun ∈ absorbedBy (.feed b) s ↔
        s.dec.stage = .readingEvents ∧ s.dec.expectedEvents = 0 ∧ s.dec.evtFill = 7)

/-! ## The ports -/

/-- Derived from 30_encoding.md section 8 (R82, R83; D3, log 23): a step takes the next request and runs the operation
the decoder reads from it, as `exec` of that instruction in the state with the request taken; `rst` overrides every
command presented with it; without a request nothing at all happens, and with no valid command nothing but that the
request is taken. The list of requests is the model's choice (log 3). -/
def Obligations.StepRunsTheDecodedCommand : Prop :=
  (∀ s : State, s.ports = [] → step s = .next s) ∧
  ∀ (s : State) (r : PortRequest) (rest : List PortRequest), s.ports = r :: rest →
    let u : State := { s with ports := rest }
    (r.rst = true → step s = exec .reset u) ∧
    (r.rst = false → r.producer = none → r.consumer = none → step s = .next u) ∧
    (∀ c i, r.rst = false → r.producer = some c → r.consumer = none →
      decode s.magic s.dec.skippingFrame (.producer c) = .ok i → step s = exec i u) ∧
    (∀ n i, r.rst = false → r.producer = none → r.consumer = some n →
      decode s.magic s.dec.skippingFrame (.consumer n) = .ok i → step s = exec i u)

/-- Derived from 30_encoding.md sections 1 and 10 (R70, R87) and 40_decoder.md sections 1.1 and 1.2: when the next
request is the FEED of the byte that completes a header window or an event, the step is `exec` of the wire row the
decoder reads from the bytes then held, in the state that holds them. The list of requests is the model's choice (log
3), the command word of FEED is D3's (log 23). -/
def Obligations.StepRunsTheCompletedWireRow : Prop :=
  ∀ (s : State) (c : BitVec 50) (rest : List PortRequest) (b : Byte) (i : Instr),
    s.ports = producerRequest c :: rest → decodeProducer c = .feed b →
    let u : State := ({ s with ports := rest } : State).takeByte b
    (s.dec.stage = .seekingHeader → s.dec.hdrFill = 11 →
      decodeBytes s.magic .seekingHeader s.dec.skippingFrame u.dec.hdrBuf.toList = .ok i → step s = exec i u) ∧
    (s.dec.stage = .readingEvents → s.dec.evtFill = 7 →
      decodeBytes s.magic .readingEvents s.dec.skippingFrame u.dec.evtBuf.toList = .ok i → step s = exec i u)

/-- Derived from 20_memory.md section 6 (R59, D4): a producer and a consumer command of one step both run, one after
the other; `ProducerFirst` and `ConsumerFirst` fix the order, and under `Any` the step is one of the two orders (which
one is a free value, log 2). The list of requests is the model's choice (log 3). -/
def Obligations.SimultaneousPairRunsInEitherOrder : Prop :=
  ∀ (s : State) (c : BitVec 50) (n : Word) (rest : List PortRequest),
    s.ports = { rst := false, producer := some c, consumer := some n } :: rest →
    let u (k : Nat) : State := { s with ports := rest, arbCount := k }
    let producerFirst (k : Nat) := execAll [decodeProducer c, .apply n] (u k)
    let consumerFirst (k : Nat) := execAll [.apply n, decodeProducer c] (u k)
    (s.arb = .producerFirst → step s = producerFirst s.arbCount) ∧
    (s.arb = .consumerFirst → step s = consumerFirst s.arbCount) ∧
    (s.arb = .any → step s = producerFirst (s.arbCount + 1) ∨ step s = consumerFirst (s.arbCount + 1))

/-! ## Encoding -/

/-- Derived from 30_encoding.md sections 3, 4, 8 and 10 (R72, R73, R82, R83, R87): decoding the word of a well-formed
instruction gives it back, every operand at every value, in the context of its row. The command words of R82 and R83
are D3's (log 23). -/
def Obligations.DecodeOfEncodeIsTheInstruction : Prop :=
  ∀ (magic : Word) (i : Instr) (p : Presented), i.wellFormed magic = true → encode magic i = some p →
    decode magic i.readWhenSkipping p = .ok i ∧ p.width = i.tableWidth

/-- Derived from 30_encoding.md sections 3, 4, 7 and 10 (R72, R73, R79, R87): every header word and every event word
decodes, to a well-formed instruction of the row R87 selects (a header word to HDR or SLIDE by its first word, an
event word to EVT_SKIP by the flag, else to EVT_WRITE or EVT_UNSUP by its chip id), and encoding that instruction
gives the word back: no wire bit is dropped by the decoder. -/
def Obligations.EveryWireWordDecodesUniquely : Prop :=
  ∀ (magic : Word) (skipping : Bool) (h : BitVec 96) (e : BitVec 64),
    (decodeHeader magic h).wellFormed magic = true ∧ encode magic (decodeHeader magic h) = some (.header h) ∧
    ((∃ ec fn, decodeHeader magic h = .hdr ec fn) ↔ h.toNat % 2 ^ 32 = magic.toNat) ∧
    ((∃ w ec fn, decodeHeader magic h = .slide w ec fn) ↔ h.toNat % 2 ^ 32 ≠ magic.toNat) ∧
    (decodeEvent skipping e).wellFormed magic = true ∧ encode magic (decodeEvent skipping e) = some (.event e) ∧
    ((∃ a v p d, decodeEvent skipping e = .evtWrite a v p d) ↔ skipping = false ∧ e.toNat % 2 ^ 8 = 0) ∧
    ((∃ c a v p d, decodeEvent skipping e = .evtUnsup c a v p d) ↔ skipping = false ∧ e.toNat % 2 ^ 8 ≠ 0) ∧
    ((∃ c a v p d, decodeEvent skipping e = .evtSkip c a v p d) ↔ skipping = true)

/-- Derived from 30_encoding.md sections 2 to 4 and 6 (R72, R73, R77), 20_memory.md section 2 (R51) and 40_decoder.md
section 1.2 (R105): the bytes of a wire word, first byte least significant, decode as the word does, and any other
number of bytes is not examined. -/
def Obligations.WireBytesDecodeAsTheWord : Prop :=
  ∀ (magic : Word) (skipping : Bool) (h : BitVec 96) (e : BitVec 64) (bytes : List Byte),
    decodeBytes magic .seekingHeader skipping (headerBytes h) = .ok (decodeHeader magic h) ∧
    decodeBytes magic .readingEvents skipping (eventBytes e) = .ok (decodeEvent skipping e) ∧
    (bytes.length ≠ 12 → decodeBytes magic .seekingHeader skipping bytes = .error .windowIncomplete) ∧
    (bytes.length ≠ 8 → decodeBytes magic .readingEvents skipping bytes = .error .windowIncomplete)

/-- Derived from 20_memory.md section 2 (R51): a 32-bit wire field is the little-endian reading of its four bytes in
arrival order. -/
def Obligations.WireFieldsAreLittleEndian : Prop :=
  ∀ b0 b1 b2 b3 : Byte,
    (le32 b0 b1 b2 b3).toNat = b0.toNat + 2 ^ 8 * b1.toNat + 2 ^ 16 * b2.toNat + 2 ^ 24 * b3.toNat ∧
      wordBytes (le32 b0 b1 b2 b3) = [b0, b1, b2, b3]

/-- Derived from 95_test_vectors.md section 2.1 (E1, E2, E3, E6) and 30_encoding.md sections 3, 4, 8 and 10 (R72, R73,
R82, R83, R87), from which the SLIDE, EVT_SKIP and RESET words are written out: words of the spec's encodings decode
to the instructions they stand for. The command words are D3's (log 23), the magic word is the vectors' stand-in
(D23). `decodeTableWord` is the model's choice (log 20): it tells the format by the widths 96, 64, 56, 32 and 8, reads
a 64-bit word in a frame that is not skipping, and rejects width 0, which the micro-operations have. -/
def Obligations.SpecWordsDecode : Prop :=
  decodeTableWord 96 0x000000070000000331444953 = some (.hdr 3 7) ∧
  decodeTableWord 96 0x0000000900000001444953FF = some (.slide 0x444953FF 1 9) ∧
  decodeTableWord 64 0x00000064000F1800 = some (.evtWrite 0x18 0x0F 0 100) ∧
  decodeTableWord 64 0x0000000A00220201 = some (.evtUnsup 1 2 0x22 0 10) ∧
  decode 0 true (.event 0x0000000A00333300) = .ok (.evtSkip 0 0x33 0x33 0 10) ∧
  decodeTableWord 56 0x0AB53DEADBEEF = some (.feed 0x53) ∧
  decodeTableWord 56 0x1180F00000064 = some (.enq 0x18 0x0F 100) ∧
  decodeTableWord 56 0x2000000000000 = some .dreset ∧
  decodeTableWord 56 0x3000000000000 = some .qclear ∧
  decodeTableWord 32 0x0000015E = some (.apply 350) ∧
  decodeTableWord 8 0x1 = some .reset ∧
  decodeTableWord 0 0 = none

/-! ## The status outputs -/

/-- Derived from 30_encoding.md section 8 (R85) and 42_host_and_renderer.md section 1 (R163, R164; which outputs there
are, and the encoding of `stage`, are D18's, log 24): what the seven status outputs show, in every state. -/
def Obligations.StatusShowsTheState : Prop :=
  ∀ s : State,
    s.status.framesDecoded = s.stats.framesDecoded ∧ s.status.unsupportedChip = s.stats.unsupportedChip ∧
      s.status.writesForwarded = s.stats.writesForwarded ∧ s.status.framesDropped = s.stats.framesDropped ∧
      s.status.cnt = s.queue.cnt ∧ s.status.empty = (if s.queue.empty = true then 1 else 0) ∧
      s.status.stage = (if s.dec.stage = .readingEvents then 1 else 0)
end

