-- ==== Sys2Proof/Laws/Encoding.lean ====
section
/-! SUPPORT. The fields of the wire and command words, read back from the words as they are put together: each field of
`headerWord`, `eventWord` and of the three `encode…` words, once. -/

namespace Sys2Proof

/-- Concatenation in the naturals. -/
theorem toNat_append_eq {m n : Nat} (a : BitVec m) (b : BitVec n) : (a ++ b).toNat = a.toNat * 2 ^ n + b.toNat := by
  rw [BitVec.toNat_append, ← Nat.shiftLeft_add_eq_or_of_lt b.isLt, Nat.shiftLeft_eq]

/-- A slice in the naturals. -/
theorem toNat_extract_eq {w : Nat} (x : BitVec w) (start len : Nat) :
    (x.extractLsb' start len).toNat = x.toNat / 2 ^ start % 2 ^ len := by
  rw [BitVec.extractLsb'_toNat, Nat.shiftRight_eq_div_pow]

/-! ## Headers (R72) -/

theorem encodeHeader_word (word eventCount frameNumber : Word) :
    (encodeHeader word eventCount frameNumber).extractLsb' 0 32 = word := by
  apply BitVec.eq_of_toNat_eq
  rw [toNat_extract_eq, encodeHeader, toNat_append_eq, toNat_append_eq]
  omega

theorem encodeHeader_eventCount (word eventCount frameNumber : Word) :
    (encodeHeader word eventCount frameNumber).extractLsb' 32 32 = eventCount := by
  apply BitVec.eq_of_toNat_eq
  rw [toNat_extract_eq, encodeHeader, toNat_append_eq, toNat_append_eq]
  omega

theorem encodeHeader_frameNumber (word eventCount frameNumber : Word) :
    (encodeHeader word eventCount frameNumber).extractLsb' 64 32 = frameNumber := by
  apply BitVec.eq_of_toNat_eq
  rw [toNat_extract_eq, encodeHeader, toNat_append_eq, toNat_append_eq]
  omega

/-- A window is the header word of its three little-endian fields. -/
theorem headerWord_eq (b : Vector Byte 12) :
    headerWord b =
      encodeHeader (le32 b[0] b[1] b[2] b[3]) (le32 b[4] b[5] b[6] b[7]) (le32 b[8] b[9] b[10] b[11]) := rfl

/-- What a window is, from its bytes. -/
theorem classifyHeader_headerWord (magic : Word) (b : Vector Byte 12) :
    classifyHeader magic (headerWord b) =
      if le32 b[0] b[1] b[2] b[3] = magic then
        .accepted (le32 b[4] b[5] b[6] b[7]) (le32 b[8] b[9] b[10] b[11])
      else
        .mismatch (le32 b[0] b[1] b[2] b[3]) (le32 b[4] b[5] b[6] b[7]) (le32 b[8] b[9] b[10] b[11]) := by
  simp only [classifyHeader, headerWord_eq, encodeHeader_word, encodeHeader_eventCount, encodeHeader_frameNumber]

/-! ## Events (R73) -/

theorem encodeEvent_chipId (c a v p : Byte) (d : Word) : (encodeEvent c a v p d).extractLsb' 0 8 = c := by
  apply BitVec.eq_of_toNat_eq
  simp only [toNat_extract_eq, encodeEvent, toNat_append_eq]
  omega

theorem encodeEvent_address (c a v p : Byte) (d : Word) : (encodeEvent c a v p d).extractLsb' 8 8 = a := by
  apply BitVec.eq_of_toNat_eq
  simp only [toNat_extract_eq, encodeEvent, toNat_append_eq]
  omega

theorem encodeEvent_value (c a v p : Byte) (d : Word) : (encodeEvent c a v p d).extractLsb' 16 8 = v := by
  apply BitVec.eq_of_toNat_eq
  simp only [toNat_extract_eq, encodeEvent, toNat_append_eq]
  omega

theorem encodeEvent_pad (c a v p : Byte) (d : Word) : (encodeEvent c a v p d).extractLsb' 24 8 = p := by
  apply BitVec.eq_of_toNat_eq
  simp only [toNat_extract_eq, encodeEvent, toNat_append_eq]
  omega

theorem encodeEvent_delay (c a v p : Byte) (d : Word) : (encodeEvent c a v p d).extractLsb' 32 32 = d := by
  apply BitVec.eq_of_toNat_eq
  simp only [toNat_extract_eq, encodeEvent, toNat_append_eq]
  omega

/-- An event's bytes are its five fields. -/
theorem eventWord_eq (b : Vector Byte 8) :
    eventWord b = encodeEvent b[0] b[1] b[2] b[3] (le32 b[4] b[5] b[6] b[7]) := by
  apply BitVec.eq_of_toNat_eq
  simp only [eventWord, encodeEvent, le32, toNat_append_eq]
  omega

/-- What an event is, from its bytes. -/
theorem classifyEvent_eventWord (skipping : Bool) (b : Vector Byte 8) :
    classifyEvent skipping (eventWord b) =
      if skipping then .skipped b[0] b[1] b[2] b[3] (le32 b[4] b[5] b[6] b[7])
      else if b[0] = 0 then .write b[1] b[2] b[3] (le32 b[4] b[5] b[6] b[7])
      else .unsupported b[0] b[1] b[2] b[3] (le32 b[4] b[5] b[6] b[7]) := by
  simp only [classifyEvent, eventWord_eq, encodeEvent_chipId, encodeEvent_address, encodeEvent_value, encodeEvent_pad,
    encodeEvent_delay, Config.supportedChip]

/-! ## Commands (R82) -/

theorem encodeCommand_op (op : BitVec 2) (a v : Byte) (d : Word) : (encodeCommand op a v d).extractLsb' 48 2 = op := by
  apply BitVec.eq_of_toNat_eq
  simp only [toNat_extract_eq, encodeCommand, toNat_append_eq]
  omega

theorem encodeCommand_a (op : BitVec 2) (a v : Byte) (d : Word) : (encodeCommand op a v d).extractLsb' 40 8 = a := by
  apply BitVec.eq_of_toNat_eq
  simp only [toNat_extract_eq, encodeCommand, toNat_append_eq]
  omega

theorem encodeCommand_v (op : BitVec 2) (a v : Byte) (d : Word) : (encodeCommand op a v d).extractLsb' 32 8 = v := by
  apply BitVec.eq_of_toNat_eq
  simp only [toNat_extract_eq, encodeCommand, toNat_append_eq]
  omega

theorem encodeCommand_d (op : BitVec 2) (a v : Byte) (d : Word) : (encodeCommand op a v d).extractLsb' 0 32 = d := by
  apply BitVec.eq_of_toNat_eq
  simp only [toNat_extract_eq, encodeCommand, toNat_append_eq]
  omega

/-- The command word of a FEED decodes to it. -/
theorem decodeProducer_feed (b : Byte) : decodeProducer (encodeCommand 0b00#2 0 b 0) = .feed b := by
  simp only [decodeProducer, encodeCommand_op, encodeCommand_v, if_true]

end Sys2Proof
end

