-- ==== Sys2Proof/Laws/State.lean ====
section
/-! SUPPORT. What each operation on State leaves in each field, one lemma per field, so that no proof unfolds a record
update. The fields an operation does not name are its frame. -/

namespace Sys2Proof.Machine

variable (s : State)

/-! `State.push` -/

@[simp] theorem State.push_dec (ev : RegisterWriteEvent) : (s.push ev).dec = s.dec := rfl
@[simp] theorem State.push_stats (ev : RegisterWriteEvent) : (s.push ev).stats = s.stats := rfl
@[simp] theorem State.push_queue (ev : RegisterWriteEvent) : (s.push ev).queue = s.queue.push ev := rfl
@[simp] theorem State.push_magic (ev : RegisterWriteEvent) : (s.push ev).magic = s.magic := rfl
@[simp] theorem State.push_arb (ev : RegisterWriteEvent) : (s.push ev).arb = s.arb := rfl
@[simp] theorem State.push_arbCount (ev : RegisterWriteEvent) : (s.push ev).arbCount = s.arbCount := rfl
@[simp] theorem State.push_ports (ev : RegisterWriteEvent) : (s.push ev).ports = s.ports := rfl
@[simp] theorem State.push_applyLog (ev : RegisterWriteEvent) : (s.push ev).applyLog = s.applyLog := rfl

/-! `State.resetFrame` -/

@[simp] theorem State.resetFrame_dec : (s.resetFrame).dec = Decoder.cleared := rfl
@[simp] theorem State.resetFrame_stats : (s.resetFrame).stats = s.stats := rfl
@[simp] theorem State.resetFrame_queue : (s.resetFrame).queue = s.queue := rfl
@[simp] theorem State.resetFrame_magic : (s.resetFrame).magic = s.magic := rfl
@[simp] theorem State.resetFrame_arb : (s.resetFrame).arb = s.arb := rfl
@[simp] theorem State.resetFrame_arbCount : (s.resetFrame).arbCount = s.arbCount := rfl
@[simp] theorem State.resetFrame_ports : (s.resetFrame).ports = s.ports := rfl
@[simp] theorem State.resetFrame_applyLog : (s.resetFrame).applyLog = s.applyLog := rfl

/-! `State.acceptHeader` -/

@[simp] theorem State.acceptHeader_dec (eventCount frameNumber : Word) : (s.acceptHeader eventCount frameNumber).dec = s.dec.accept eventCount frameNumber := rfl
@[simp] theorem State.acceptHeader_stats (eventCount frameNumber : Word) : (s.acceptHeader eventCount frameNumber).stats = { s.stats with framesDecoded := s.stats.framesDecoded + 1 } := rfl
@[simp] theorem State.acceptHeader_queue (eventCount frameNumber : Word) : (s.acceptHeader eventCount frameNumber).queue = s.queue := rfl
@[simp] theorem State.acceptHeader_magic (eventCount frameNumber : Word) : (s.acceptHeader eventCount frameNumber).magic = s.magic := rfl
@[simp] theorem State.acceptHeader_arb (eventCount frameNumber : Word) : (s.acceptHeader eventCount frameNumber).arb = s.arb := rfl
@[simp] theorem State.acceptHeader_arbCount (eventCount frameNumber : Word) : (s.acceptHeader eventCount frameNumber).arbCount = s.arbCount := rfl
@[simp] theorem State.acceptHeader_ports (eventCount frameNumber : Word) : (s.acceptHeader eventCount frameNumber).ports = s.ports := rfl
@[simp] theorem State.acceptHeader_applyLog (eventCount frameNumber : Word) : (s.acceptHeader eventCount frameNumber).applyLog = s.applyLog := rfl

/-! `State.slideWindow` -/

@[simp] theorem State.slideWindow_dec : (s.slideWindow).dec = s.dec.slide := rfl
@[simp] theorem State.slideWindow_stats : (s.slideWindow).stats = s.stats := rfl
@[simp] theorem State.slideWindow_queue : (s.slideWindow).queue = s.queue := rfl
@[simp] theorem State.slideWindow_magic : (s.slideWindow).magic = s.magic := rfl
@[simp] theorem State.slideWindow_arb : (s.slideWindow).arb = s.arb := rfl
@[simp] theorem State.slideWindow_arbCount : (s.slideWindow).arbCount = s.arbCount := rfl
@[simp] theorem State.slideWindow_ports : (s.slideWindow).ports = s.ports := rfl
@[simp] theorem State.slideWindow_applyLog : (s.slideWindow).applyLog = s.applyLog := rfl

/-! `State.takeEvent` -/

@[simp] theorem State.takeEvent_dec : (s.takeEvent).dec = s.dec.takeEvent := rfl
@[simp] theorem State.takeEvent_stats : (s.takeEvent).stats = s.stats := rfl
@[simp] theorem State.takeEvent_queue : (s.takeEvent).queue = s.queue := rfl
@[simp] theorem State.takeEvent_magic : (s.takeEvent).magic = s.magic := rfl
@[simp] theorem State.takeEvent_arb : (s.takeEvent).arb = s.arb := rfl
@[simp] theorem State.takeEvent_arbCount : (s.takeEvent).arbCount = s.arbCount := rfl
@[simp] theorem State.takeEvent_ports : (s.takeEvent).ports = s.ports := rfl
@[simp] theorem State.takeEvent_applyLog : (s.takeEvent).applyLog = s.applyLog := rfl

/-! `State.markUnsupported` -/

@[simp] theorem State.markUnsupported_dec : (s.markUnsupported).dec = { s.dec with skippingFrame := true } := rfl
@[simp] theorem State.markUnsupported_stats : (s.markUnsupported).stats = { s.stats with unsupportedChip := s.stats.unsupportedChip + 1 } := rfl
@[simp] theorem State.markUnsupported_queue : (s.markUnsupported).queue = s.queue := rfl
@[simp] theorem State.markUnsupported_magic : (s.markUnsupported).magic = s.magic := rfl
@[simp] theorem State.markUnsupported_arb : (s.markUnsupported).arb = s.arb := rfl
@[simp] theorem State.markUnsupported_arbCount : (s.markUnsupported).arbCount = s.arbCount := rfl
@[simp] theorem State.markUnsupported_ports : (s.markUnsupported).ports = s.ports := rfl
@[simp] theorem State.markUnsupported_applyLog : (s.markUnsupported).applyLog = s.applyLog := rfl

/-! `State.forward` -/

@[simp] theorem State.forward_dec (address value : Byte) (delay : Word) : (s.forward address value delay).dec = s.dec := rfl
@[simp] theorem State.forward_stats (address value : Byte) (delay : Word) : (s.forward address value delay).stats = { s.stats with writesForwarded := s.stats.writesForwarded + 1 } := rfl
@[simp] theorem State.forward_queue (address value : Byte) (delay : Word) : (s.forward address value delay).queue = s.queue.push (eventOf address value delay) := rfl
@[simp] theorem State.forward_magic (address value : Byte) (delay : Word) : (s.forward address value delay).magic = s.magic := rfl
@[simp] theorem State.forward_arb (address value : Byte) (delay : Word) : (s.forward address value delay).arb = s.arb := rfl
@[simp] theorem State.forward_arbCount (address value : Byte) (delay : Word) : (s.forward address value delay).arbCount = s.arbCount := rfl
@[simp] theorem State.forward_ports (address value : Byte) (delay : Word) : (s.forward address value delay).ports = s.ports := rfl
@[simp] theorem State.forward_applyLog (address value : Byte) (delay : Word) : (s.forward address value delay).applyLog = s.applyLog := rfl

/-! `State.countAndCheck` -/

@[simp] theorem State.countAndCheck_dec : (s.countAndCheck).dec = s.dec.countAndCheck := rfl
@[simp] theorem State.countAndCheck_stats : (s.countAndCheck).stats = s.stats := rfl
@[simp] theorem State.countAndCheck_queue : (s.countAndCheck).queue = s.queue := rfl
@[simp] theorem State.countAndCheck_magic : (s.countAndCheck).magic = s.magic := rfl
@[simp] theorem State.countAndCheck_arb : (s.countAndCheck).arb = s.arb := rfl
@[simp] theorem State.countAndCheck_arbCount : (s.countAndCheck).arbCount = s.arbCount := rfl
@[simp] theorem State.countAndCheck_ports : (s.countAndCheck).ports = s.ports := rfl
@[simp] theorem State.countAndCheck_applyLog : (s.countAndCheck).applyLog = s.applyLog := rfl

/-! `State.applyDue` -/

@[simp] theorem State.applyDue_dec (n : Word) : (s.applyDue n).dec = s.dec := rfl
@[simp] theorem State.applyDue_stats (n : Word) : (s.applyDue n).stats = s.stats := rfl
@[simp] theorem State.applyDue_queue (n : Word) : (s.applyDue n).queue = (s.queue.applyDue n).1 := rfl
@[simp] theorem State.applyDue_magic (n : Word) : (s.applyDue n).magic = s.magic := rfl
@[simp] theorem State.applyDue_arb (n : Word) : (s.applyDue n).arb = s.arb := rfl
@[simp] theorem State.applyDue_arbCount (n : Word) : (s.applyDue n).arbCount = s.arbCount := rfl
@[simp] theorem State.applyDue_ports (n : Word) : (s.applyDue n).ports = s.ports := rfl
@[simp] theorem State.applyDue_applyLog (n : Word) : (s.applyDue n).applyLog = s.applyLog ++ [(s.queue.applyDue n).2] := rfl

/-! `State.clearQueue` -/

@[simp] theorem State.clearQueue_dec : (s.clearQueue).dec = s.dec := rfl
@[simp] theorem State.clearQueue_stats : (s.clearQueue).stats = s.stats := rfl
@[simp] theorem State.clearQueue_queue : (s.clearQueue).queue = s.queue.clear := rfl
@[simp] theorem State.clearQueue_magic : (s.clearQueue).magic = s.magic := rfl
@[simp] theorem State.clearQueue_arb : (s.clearQueue).arb = s.arb := rfl
@[simp] theorem State.clearQueue_arbCount : (s.clearQueue).arbCount = s.arbCount := rfl
@[simp] theorem State.clearQueue_ports : (s.clearQueue).ports = s.ports := rfl
@[simp] theorem State.clearQueue_applyLog : (s.clearQueue).applyLog = s.applyLog := rfl

/-! `State.hardwareReset` -/

@[simp] theorem State.hardwareReset_dec : (s.hardwareReset).dec = Decoder.cleared := rfl
@[simp] theorem State.hardwareReset_stats : (s.hardwareReset).stats = Stats.cleared := rfl
@[simp] theorem State.hardwareReset_queue : (s.hardwareReset).queue = Queue.initial := rfl
@[simp] theorem State.hardwareReset_magic : (s.hardwareReset).magic = s.magic := rfl
@[simp] theorem State.hardwareReset_arb : (s.hardwareReset).arb = s.arb := rfl
@[simp] theorem State.hardwareReset_arbCount : (s.hardwareReset).arbCount = s.arbCount := rfl
@[simp] theorem State.hardwareReset_ports : (s.hardwareReset).ports = s.ports := rfl
@[simp] theorem State.hardwareReset_applyLog : (s.hardwareReset).applyLog = s.applyLog := rfl

/-! `State.present` -/

@[simp] theorem State.present_dec (r : PortRequest) : (s.present r).dec = s.dec := rfl
@[simp] theorem State.present_stats (r : PortRequest) : (s.present r).stats = s.stats := rfl
@[simp] theorem State.present_queue (r : PortRequest) : (s.present r).queue = s.queue := rfl
@[simp] theorem State.present_magic (r : PortRequest) : (s.present r).magic = s.magic := rfl
@[simp] theorem State.present_arb (r : PortRequest) : (s.present r).arb = s.arb := rfl
@[simp] theorem State.present_arbCount (r : PortRequest) : (s.present r).arbCount = s.arbCount := rfl
@[simp] theorem State.present_ports (r : PortRequest) : (s.present r).ports = r :: s.ports := rfl
@[simp] theorem State.present_applyLog (r : PortRequest) : (s.present r).applyLog = s.applyLog := rfl

end Sys2Proof.Machine
end

