-- ==== Sys2Proof/Laws/Memory.lean ====
section
/-! SUPPORT. The laws of the ring buffer's slots: every memory operation keeps the canonical form, and a slot reads as
it was last written. -/

namespace Sys2Proof.Machine

/-! ## The canonical form -/

theorem Memory.wfFrom_cons {lo i : Nat} {ev : RegisterWriteEvent} {m : Memory} :
    Memory.wfFrom lo ((i, ev) :: m) = true ↔
      lo ≤ i ∧ i < 256 ∧ ev ≠ blankEvent ∧ Memory.wfFrom (i + 1) m = true := by
  simp [Memory.wfFrom, and_assoc]

theorem Memory.wfFrom_mono {lo lo' : Nat} {m : Memory} (h : lo ≤ lo') (hm : Memory.wfFrom lo' m = true) :
    Memory.wfFrom lo m = true := by
  cases m with
  | nil => rfl
  | cons c m =>
    obtain ⟨i, ev⟩ := c
    rw [Memory.wfFrom_cons] at hm ⊢
    exact ⟨by omega, hm.2⟩

theorem Memory.wfFrom_eraseAt {lo : Nat} {m : Memory} (i : Nat) (hm : Memory.wfFrom lo m = true) :
    Memory.wfFrom lo (Memory.eraseAt m i) = true := by
  induction m generalizing lo with
  | nil => rfl
  | cons c m ih =>
    obtain ⟨j, ev⟩ := c
    rw [Memory.wfFrom_cons] at hm
    obtain ⟨h1, h2, h3, h4⟩ := hm
    unfold Memory.eraseAt
    split
    · exact Memory.wfFrom_mono (by omega) h4
    · exact Memory.wfFrom_cons.2 ⟨h1, h2, h3, ih h4⟩

theorem Memory.wfFrom_insertAt {lo i : Nat} {m : Memory} {ev : RegisterWriteEvent} (hlo : lo ≤ i) (hi : i < 256)
    (hev : ev ≠ blankEvent) (hm : Memory.wfFrom lo m = true) :
    Memory.wfFrom lo (Memory.insertAt m i ev) = true := by
  induction m generalizing lo with
  | nil => exact Memory.wfFrom_cons.2 ⟨hlo, hi, hev, rfl⟩
  | cons c m ih =>
    obtain ⟨j, old⟩ := c
    rw [Memory.wfFrom_cons] at hm
    obtain ⟨h1, h2, h3, h4⟩ := hm
    unfold Memory.insertAt
    split
    · next h =>
      exact Memory.wfFrom_cons.2 ⟨hlo, hi, hev, Memory.wfFrom_cons.2 ⟨by omega, h2, h3, h4⟩⟩
    · split
      · next h => subst h; exact Memory.wfFrom_cons.2 ⟨hlo, hi, hev, h4⟩
      · exact Memory.wfFrom_cons.2 ⟨h1, h2, h3, ih (by omega) h4⟩

/-- Writing a slot keeps the canonical form. -/
theorem Memory.wf_write {m : Memory} (i : SlotIndex) (ev : RegisterWriteEvent) (hm : m.wf = true) :
    (m.write i ev).wf = true := by
  unfold Memory.write Memory.wf
  split
  · exact Memory.wfFrom_eraseAt _ hm
  · next h => exact Memory.wfFrom_insertAt (Nat.zero_le _) i.isLt h hm

/-- Nothing listed is in canonical form. -/
theorem Memory.wf_nil : Memory.wf [] = true := rfl

/-! ## Reading -/

theorem Memory.readAt_of_lt {lo i : Nat} {m : Memory} (hm : Memory.wfFrom lo m = true) (h : i < lo) :
    Memory.readAt m i = blankEvent := by
  induction m generalizing lo with
  | nil => rfl
  | cons c m ih =>
    obtain ⟨j, ev⟩ := c
    rw [Memory.wfFrom_cons] at hm
    unfold Memory.readAt
    rw [if_neg (by omega)]
    exact ih hm.2.2.2 (by omega)

theorem Memory.readAt_eraseAt {lo : Nat} {m : Memory} (i k : Nat) (hm : Memory.wfFrom lo m = true) :
    Memory.readAt (Memory.eraseAt m i) k = if k = i then blankEvent else Memory.readAt m k := by
  induction m generalizing lo with
  | nil => simp [Memory.eraseAt, Memory.readAt]
  | cons c m ih =>
    obtain ⟨j, ev⟩ := c
    rw [Memory.wfFrom_cons] at hm
    obtain ⟨-, -, -, h4⟩ := hm
    have := ih h4
    unfold Memory.eraseAt
    by_cases hij : i = j
    · subst hij
      by_cases hk : k = i
      · simp [hk, Memory.readAt_of_lt h4 (Nat.lt_succ_self i)]
      · simp [hk, Memory.readAt]
    · simp only [hij, if_false, Memory.readAt, this]
      by_cases hk : k = j
      · simp [hk, Ne.symm hij]
      · simp [hk]

theorem Memory.readAt_insertAt (m : Memory) (i k : Nat) (ev : RegisterWriteEvent) :
    Memory.readAt (Memory.insertAt m i ev) k = if k = i then ev else Memory.readAt m k := by
  induction m with
  | nil => rfl
  | cons c m ih =>
    obtain ⟨j, old⟩ := c
    unfold Memory.insertAt
    by_cases h : i < j
    · simp [h, Memory.readAt]
    · by_cases hij : i = j
      · subst hij
        by_cases hk : k = i <;> simp [hk, Memory.readAt]
      · simp only [h, hij, if_false, Memory.readAt, ih]
        by_cases hk : k = j
        · simp [hk, Ne.symm hij]
        · simp [hk]

/-- The one law of a slot write: the written slot reads as the record, every other slot as before. -/
theorem Memory.read_write {m : Memory} (hm : m.wf = true) (i k : SlotIndex) (ev : RegisterWriteEvent) :
    (m.write i ev).read k = if k = i then ev else m.read k := by
  unfold Memory.read Memory.write
  simp only [← BitVec.toNat_inj (x := k) (y := i)]
  split
  · next h => rw [Memory.readAt_eraseAt _ _ hm, h]
  · exact Memory.readAt_insertAt ..

theorem Memory.read_nil (i : SlotIndex) : Memory.read [] i = blankEvent := rfl

/-! ## Runs of slots -/

@[simp] theorem Memory.length_run (m : Memory) (i : SlotIndex) (k : Nat) : (m.run i k).length = k := by
  induction k generalizing i with
  | zero => rfl
  | succ k ih => simp [Memory.run, ih]

/-- Slot `j` of a run. -/
theorem Memory.getElem_run (m : Memory) (i : SlotIndex) (k j : Nat) (h : j < k) :
    (m.run i k)[j]'(by simpa using h) = m.read (i + BitVec.ofNat 8 j) := by
  induction k generalizing i j with
  | zero => omega
  | succ k ih =>
    cases j with
    | zero => simp [Memory.run]
    | succ j =>
      simp only [Memory.run, List.getElem_cons_succ]
      rw [ih (nextIndex i) j (by omega)]
      congr 1
      simp only [nextIndex, BitVec.ofNat_add, BitVec.add_assoc]
      rw [BitVec.add_comm (1 : SlotIndex)]
      rfl

/-- A run is a run and one slot more. -/
theorem Memory.run_succ (m : Memory) (i : SlotIndex) (k : Nat) :
    m.run i (k + 1) = m.run i k ++ [m.read (i + BitVec.ofNat 8 k)] := by
  induction k generalizing i with
  | zero => simp [Memory.run]
  | succ k ih =>
    rw [Memory.run, ih, Memory.run, List.cons_append]
    congr 4
    simp only [nextIndex, BitVec.ofNat_add, BitVec.add_assoc]
    rw [BitVec.add_comm (1 : SlotIndex)]
    rfl

/-- A write outside a run leaves it alone. -/
theorem Memory.run_write_outside {m : Memory} (hm : m.wf = true) (w i : SlotIndex) (ev : RegisterWriteEvent) (k : Nat)
    (h : ∀ j < k, i + BitVec.ofNat 8 j ≠ w) : (m.write w ev).run i k = m.run i k := by
  apply List.ext_getElem (by simp)
  intro j h1 h2
  have hj : j < k := by simpa using h1
  rw [Memory.getElem_run _ _ _ _ hj, Memory.getElem_run _ _ _ _ hj, Memory.read_write hm, if_neg (h j hj)]

end Sys2Proof.Machine
end

