-- ==== Sys2Proof/Laws/Queue.lean ====
section
/-! SUPPORT. The laws of the queue group: what PUSH, one pass of APPLY's loop, the loop, APPLY and QCLEAR do, each said
once; and that each keeps the queue's invariant. -/

namespace Sys2Proof.Machine

namespace Queue

/-! ## Index arithmetic -/

theorem isEmpty_eq_true {q : Queue} : q.isEmpty = true ↔ q.rd = q.wr := by simp [isEmpty]

theorem isFull_eq_true {q : Queue} : q.isFull = true ↔ nextIndex q.wr = q.rd := by simp [isFull]

/-- The queue is full exactly when 255 events are live (R36 items 2 and 3). -/
theorem isFull_iff_liveCount {q : Queue} : q.isFull = true ↔ q.liveCount = 255 := by
  rw [isFull_eq_true, liveCount, nextIndex]
  constructor <;> intro h <;> bv_omega

theorem liveCount_lt (q : Queue) : q.liveCount < 256 := (q.wr - q.rd).isLt

theorem liveCount_eq_zero {q : Queue} : q.liveCount = 0 ↔ q.rd = q.wr := by
  unfold liveCount
  constructor
  · intro h; bv_omega
  · intro h; simp [h]

theorem length_live (q : Queue) : q.live.length = q.liveCount := by simp [live]

theorem live_eq_nil {q : Queue} : q.live = [] ↔ q.rd = q.wr := by
  rw [← liveCount_eq_zero, ← length_live, List.length_eq_zero_iff]

/-! ## PUSH -/

/-- R131: nothing changes. -/
theorem push_of_full {q : Queue} (h : q.isFull = true) (ev : RegisterWriteEvent) : q.push ev = q := by
  simp [push, h]

/-- R132, R133: what a kept PUSH leaves. -/
theorem push_of_not_full {q : Queue} (h : q.isFull = false) (ev : RegisterWriteEvent) :
    q.push ev =
      { buf := q.buf.write q.wr ev, wr := nextIndex q.wr, rd := q.rd, empty := false,
        cnt := if q.empty then ev.delayCycles else q.cnt } := by
  unfold push
  rw [h]
  cases he : q.empty <;> simp [seedOf]

theorem push_rd (q : Queue) (ev : RegisterWriteEvent) : (q.push ev).rd = q.rd := by
  cases h : q.isFull
  · rw [push_of_not_full h]
  · rw [push_of_full h]

theorem push_keeps_inv {q : Queue} (hq : q.Inv) (ev : RegisterWriteEvent) : (q.push ev).Inv := by
  cases h : q.isFull
  · rw [push_of_not_full h]
    refine ⟨Memory.wf_write _ _ hq.bufWf, ?_, by simp⟩
    have : ¬ nextIndex q.wr = q.rd := by simpa [← isFull_eq_true] using h
    simp only [Bool.false_eq_true, false_iff]
    exact fun e => this e.symm
  · rwa [push_of_full h]

/-- A kept event becomes the last live one (R36 item 6). -/
theorem live_push {q : Queue} (hq : q.Inv) (h : q.isFull = false) (ev : RegisterWriteEvent) :
    (q.push ev).live = q.live ++ [ev] := by
  rw [push_of_not_full h]
  have hn : ¬ nextIndex q.wr = q.rd := by simpa [isFull] using h
  have hc : (nextIndex q.wr - q.rd).toNat = (q.wr - q.rd).toNat + 1 := by
    simp only [nextIndex] at hn ⊢; bv_omega
  have hw : q.rd + BitVec.ofNat 8 (q.wr - q.rd).toNat = q.wr := by
    rw [BitVec.ofNat_toNat, BitVec.setWidth_eq, BitVec.add_comm, BitVec.sub_add_cancel]
  simp only [live, liveCount]
  rw [hc, Memory.run_succ, Memory.read_write hq.bufWf, if_pos hw, Memory.run_write_outside hq.bufWf]
  intro j hj
  bv_omega

theorem live_push_of_full {q : Queue} (h : q.isFull = true) (ev : RegisterWriteEvent) :
    (q.push ev).live = q.live := by rw [push_of_full h]

/-! ## One pass of APPLY's loop -/

/-- R136: more events remain. -/
theorem pop_of_more {q : Queue} (h : nextIndex q.rd ≠ q.wr) :
    q.pop = { q with rd := nextIndex q.rd, cnt := q.cnt + (q.buf.read (nextIndex q.rd)).delayCycles } := by
  simp [pop, carry, h]

/-- R137: that was the last. -/
theorem pop_of_last {q : Queue} (h : nextIndex q.rd = q.wr) :
    q.pop = { q with rd := nextIndex q.rd, empty := true, cnt := 0 } := by
  simp [pop, h]

theorem pop_buf (q : Queue) : q.pop.buf = q.buf := by unfold pop; dsimp only; split <;> rfl

theorem pop_wr (q : Queue) : q.pop.wr = q.wr := by unfold pop; dsimp only; split <;> rfl

theorem pop_rd (q : Queue) : q.pop.rd = nextIndex q.rd := by unfold pop; dsimp only; split <;> rfl

theorem pop_keeps_inv {q : Queue} (hw : q.buf.wf = true) (he : q.empty = false) : q.pop.Inv := by
  by_cases h : nextIndex q.rd = q.wr
  · rw [pop_of_last h]; exact ⟨hw, by simp [h], by simp⟩
  · rw [pop_of_more h]; exact ⟨hw, by simp [h, he], by simp [he]⟩

/-- The head leaves the live events. -/
theorem live_pop {q : Queue} (h : q.rd ≠ q.wr) : q.live = q.buf.read q.rd :: q.pop.live := by
  have hc : (q.wr - q.rd).toNat = (q.wr - nextIndex q.rd).toNat + 1 := by simp only [nextIndex]; bv_omega
  simp only [live, liveCount, pop_buf, pop_wr, pop_rd]
  rw [hc]
  rfl

/-! ## The loop -/

/-- How many passes the loop can make at most: the live events, and 256 in a state whose flag and indices disagree. -/
def passesLeft (q : Queue) : Nat :=
  if q.empty then 0 else if q.liveCount = 0 then 256 else q.liveCount

theorem liveCount_pop (q : Queue) : q.pop.liveCount = (q.wr - nextIndex q.rd).toNat := by
  rw [liveCount, pop_wr, pop_rd]

theorem passesLeft_of_empty {q : Queue} (he : q.empty = true) : q.passesLeft = 0 := by simp [passesLeft, he]

theorem passesLeft_of_not_empty {q : Queue} (he : q.empty = false) :
    q.passesLeft = if q.liveCount = 0 then 256 else q.liveCount := by simp [passesLeft, he]

theorem passesLeft_pop {q : Queue} (he : q.empty = false) : q.pop.passesLeft + 1 = q.passesLeft := by
  rw [passesLeft_of_not_empty he]
  by_cases h : nextIndex q.rd = q.wr
  · have h1 : q.liveCount = 1 := by simp only [liveCount, nextIndex] at h ⊢; bv_omega
    rw [passesLeft_of_empty (by rw [pop_of_last h]), h1]
    rfl
  · rw [passesLeft_of_not_empty (by rw [pop_of_more h]; exact he), liveCount_pop, liveCount]
    have h1 : (q.wr - nextIndex q.rd).toNat ≠ 0 := by simp only [nextIndex] at h ⊢; bv_omega
    rw [if_neg h1]
    by_cases h0 : q.rd = q.wr
    · rw [if_pos (by bv_omega), nextIndex]
      bv_omega
    · rw [if_neg (by bv_omega), nextIndex]
      simp only [nextIndex] at h
      bv_omega

theorem passesLeft_le (q : Queue) : q.passesLeft ≤ 256 := by
  have := q.liveCount_lt
  unfold passesLeft
  split
  · omega
  · split <;> omega

theorem drain_of_not_due {k : Nat} {q : Queue} (h : q.headDue = false) : drain k q = (q, []) := by
  cases k <;> simp [drain, h]

theorem drain_of_due {k : Nat} {q : Queue} (h : q.headDue = true) :
    drain (k + 1) q = ((drain k q.pop).1, q.headWrite :: (drain k q.pop).2) := by
  simp [drain, h]

theorem not_empty_of_headDue {q : Queue} (h : q.headDue = true) : q.empty = false := by
  unfold headDue at h
  cases he : q.empty
  · rfl
  · simp [he] at h

/-- The bound cuts nothing off: any two bounds the passes fit into give the same result. -/
theorem drain_congr {j k : Nat} {q : Queue} (hj : q.passesLeft ≤ j) (hk : q.passesLeft ≤ k) : drain j q = drain k q := by
  induction j generalizing k q with
  | zero =>
    cases h : q.headDue
    · rw [drain_of_not_due h, drain_of_not_due h]
    · have := passesLeft_pop (not_empty_of_headDue h); omega
  | succ j ih =>
    cases h : q.headDue
    · rw [drain_of_not_due h, drain_of_not_due h]
    · have hp := passesLeft_pop (not_empty_of_headDue h)
      cases k with
      | zero => omega
      | succ k => rw [drain_of_due h, drain_of_due h, ih (k := k) (by omega) (by omega)]

/-- The loop ends only when nothing is due. -/
theorem drain_not_due {k : Nat} {q : Queue} (hk : q.passesLeft ≤ k) : (drain k q).1.headDue = false := by
  induction k generalizing q with
  | zero =>
    cases h : q.headDue
    · rw [drain_of_not_due h]; exact h
    · have := passesLeft_pop (not_empty_of_headDue h); omega
  | succ k ih =>
    cases h : q.headDue
    · rw [drain_of_not_due h]; exact h
    · have := passesLeft_pop (not_empty_of_headDue h)
      rw [drain_of_due h]
      exact ih (by omega)

theorem drain_buf (k : Nat) (q : Queue) : (drain k q).1.buf = q.buf ∧ (drain k q).1.wr = q.wr := by
  induction k generalizing q with
  | zero => exact ⟨rfl, rfl⟩
  | succ k ih =>
    cases h : q.headDue
    · rw [drain_of_not_due h]; exact ⟨rfl, rfl⟩
    · rw [drain_of_due h]
      have := ih q.pop
      rw [pop_buf, pop_wr] at this
      exact this

theorem drain_length_le (k : Nat) (q : Queue) : (drain k q).2.length ≤ q.passesLeft := by
  induction k generalizing q with
  | zero => exact Nat.zero_le _
  | succ k ih =>
    cases h : q.headDue
    · rw [drain_of_not_due h]; exact Nat.zero_le _
    · have := passesLeft_pop (not_empty_of_headDue h)
      rw [drain_of_due h, List.length_cons]
      have := ih q.pop
      omega

/-- Only the countdown is not yet settled inside APPLY: the rest of the invariant. -/
structure LoopInv (q : Queue) : Prop where
  bufWf : q.buf.wf = true
  emptyIff : q.empty = true ↔ q.rd = q.wr

theorem Inv.loopInv {q : Queue} (h : q.Inv) (c : Word) : LoopInv { q with cnt := c } := ⟨h.bufWf, h.emptyIff⟩

theorem LoopInv.rd_ne_wr {q : Queue} (h : LoopInv q) (he : q.empty = false) : q.rd ≠ q.wr := fun e => by
  rw [h.emptyIff.2 e] at he; cases he

theorem LoopInv.pop {q : Queue} (h : LoopInv q) (he : q.empty = false) : LoopInv q.pop :=
  ⟨(pop_keeps_inv h.bufWf he).bufWf, (pop_keeps_inv h.bufWf he).emptyIff⟩

/-- What the loop returns is an initial run of the live events, and the rest stays live. -/
theorem drain_live {k : Nat} {q : Queue} (hq : LoopInv q) :
    LoopInv (drain k q).1 ∧
      ∃ m, m ≤ q.live.length ∧ (drain k q).2 = (q.live.take m).map writeOf ∧ (drain k q).1.live = q.live.drop m := by
  induction k generalizing q with
  | zero => exact ⟨hq, 0, by simp [drain]⟩
  | succ k ih =>
    cases h : q.headDue
    · rw [drain_of_not_due h]; exact ⟨hq, 0, by simp⟩
    · have he := not_empty_of_headDue h
      obtain ⟨hi, m, hm, h1, h2⟩ := ih (hq.pop he)
      rw [drain_of_due h, live_pop (hq.rd_ne_wr he)]
      exact ⟨hi, m + 1, by simpa using hm, by simp [h1, headWrite], by simpa using h2⟩

/-! ## APPLY -/

theorem settle_buf (q : Queue) : q.settle.buf = q.buf ∧ q.settle.wr = q.wr ∧ q.settle.rd = q.rd ∧
    q.settle.empty = q.empty := by
  unfold settle; split <;> simp

theorem settle_live (q : Queue) : q.settle.live = q.live := by
  obtain ⟨h1, h2, h3, -⟩ := settle_buf q
  simp [live, liveCount, h1, h2, h3]

theorem LoopInv.settle {q : Queue} (h : LoopInv q) : q.settle.Inv := by
  obtain ⟨h1, h2, h3, h4⟩ := settle_buf q
  refine ⟨by rw [h1]; exact h.bufWf, by rw [h2, h3, h4]; exact h.emptyIff, ?_⟩
  intro he
  rw [h4] at he
  simp [Queue.settle, he]

theorem applyDue_eq (q : Queue) (n : Word) :
    q.applyDue n = ((drain drainPasses { q with cnt := elapse q.cnt n }).1.settle,
      (drain drainPasses { q with cnt := elapse q.cnt n }).2) := rfl

/-! APPLY on any queue, by its first pass: empty, not due, the last event due, the head due with more behind it
(R134 to R138). -/

theorem applyDue_of_empty {q : Queue} (he : q.empty = true) (n : Word) : q.applyDue n = ({ q with cnt := 0 }, []) := by
  have : ({ q with cnt := elapse q.cnt n } : Queue).headDue = false := by simp [headDue, he]
  rw [applyDue_eq, drain_of_not_due this]
  simp [settle, he]

theorem applyDue_of_not_due {q : Queue} {n : Word} (he : q.empty = false) (h : (q.cnt - n).sle 0 = false) :
    q.applyDue n = ({ q with cnt := q.cnt - n }, []) := by
  have : ({ q with cnt := elapse q.cnt n } : Queue).headDue = false := by
    simp only [headDue, elapse, h, Bool.and_false]
  rw [applyDue_eq, drain_of_not_due this]
  simp [settle, he, elapse]

theorem applyDue_of_last {q : Queue} {n : Word} (he : q.empty = false) (h : (q.cnt - n).sle 0 = true)
    (hl : nextIndex q.rd = q.wr) :
    q.applyDue n = ({ q with rd := q.wr, empty := true, cnt := 0 }, [writeOf (q.buf.read q.rd)]) := by
  have hd : ({ q with cnt := elapse q.cnt n } : Queue).headDue = true := by
    simp only [headDue, elapse, h, he, Bool.not_false, Bool.and_self]
  have hp : ({ q with cnt := elapse q.cnt n } : Queue).pop = { q with rd := nextIndex q.rd, empty := true, cnt := 0 } :=
    pop_of_last (q := { q with cnt := elapse q.cnt n }) hl
  rw [applyDue_eq, show drainPasses = 255 + 1 from rfl, drain_of_due hd, hp, drain_of_not_due (by simp [headDue]), hl]
  simp [settle, headWrite]

theorem applyDue_of_more {q : Queue} {n : Word} (he : q.empty = false) (h : (q.cnt - n).sle 0 = true)
    (hl : nextIndex q.rd ≠ q.wr) :
    let q' : Queue := { q with rd := nextIndex q.rd, cnt := q.cnt - n + (q.buf.read (nextIndex q.rd)).delayCycles }
    q.applyDue n = ((q'.applyDue 0).1, writeOf (q.buf.read q.rd) :: (q'.applyDue 0).2) := by
  have hd : ({ q with cnt := elapse q.cnt n } : Queue).headDue = true := by
    simp only [headDue, elapse, h, he, Bool.not_false, Bool.and_self]
  intro q'
  have hp : ({ q with cnt := elapse q.cnt n } : Queue).pop = q' := pop_of_more (q := { q with cnt := elapse q.cnt n }) hl
  have hz : ({ q' with cnt := elapse q'.cnt 0 } : Queue) = q' := by simp [elapse]
  have hf : q'.passesLeft ≤ 255 := by
    have h1 := passesLeft_pop (q := { q with cnt := elapse q.cnt n }) he
    have h2 := passesLeft_le { q with cnt := elapse q.cnt n }
    rw [hp] at h1
    omega
  have hc : drain 255 q' = drain drainPasses q' := drain_congr hf (by unfold drainPasses; omega)
  rw [applyDue_eq, applyDue_eq, hz, show drain drainPasses { q with cnt := elapse q.cnt n } = _ from
    drain_of_due (k := 255) hd, hp, hc]
  rfl

theorem applyDue_keeps_inv {q : Queue} (hq : q.Inv) (n : Word) : (q.applyDue n).1.Inv :=
  (drain_live (hq.loopInv _)).1.settle

/-- FIFO: APPLY returns an initial run of the live events, and the rest stays live (R139, R143). -/
theorem applyDue_live {q : Queue} (hq : q.Inv) (n : Word) :
    ∃ m, m ≤ q.live.length ∧ (q.applyDue n).2 = (q.live.take m).map writeOf ∧
      (q.applyDue n).1.live = q.live.drop m := by
  obtain ⟨-, m, hm, h1, h2⟩ := drain_live (k := drainPasses) (hq.loopInv (elapse q.cnt n))
  exact ⟨m, hm, h1, by rw [applyDue, settle_live, h2]; rfl⟩

theorem applyDue_frame (q : Queue) (n : Word) : (q.applyDue n).1.buf = q.buf ∧ (q.applyDue n).1.wr = q.wr := by
  have h := drain_buf drainPasses { q with cnt := elapse q.cnt n }
  have hs := settle_buf (drain drainPasses { q with cnt := elapse q.cnt n }).1
  exact ⟨hs.1.trans h.1, hs.2.1.trans h.2⟩

/-- After APPLY the head, if any, is not due (R135). -/
theorem applyDue_not_due (q : Queue) (n : Word) : (q.applyDue n).1.headDue = false := by
  have h := drain_not_due (k := drainPasses) (q := { q with cnt := elapse q.cnt n }) (passesLeft_le _)
  simp only [applyDue, settle]
  split
  · next he => simp [headDue, he]
  · exact h

theorem applyDue_length_le (q : Queue) (n : Word) : (q.applyDue n).2.length ≤ q.passesLeft :=
  drain_length_le drainPasses { q with cnt := elapse q.cnt n }

/-! ## QCLEAR and RESET -/

theorem clear_keeps_inv {q : Queue} (hq : q.Inv) : q.clear.Inv := ⟨hq.bufWf, by simp [clear], by simp [clear]⟩

theorem live_clear (q : Queue) : q.clear.live = [] := by simp [live_eq_nil, clear]

theorem initial_inv : Queue.initial.Inv := ⟨rfl, by simp [initial], by simp [initial]⟩

end Queue

end Sys2Proof.Machine
end

