-- ==== Sys2Proof/Laws/Decoder.lean ====
section
/-! SUPPORT. The laws of the decoder group: what taking a byte, accepting, sliding and counting leave, each said once; that
each keeps the decoder's invariant; and FEED by cases. -/

namespace Sys2Proof.Machine

namespace Decoder

/-! ## Taking a byte -/

theorem takeHeaderByte_fill {d : Decoder} (h : d.hdrFill.toNat ≤ 11) (b : Byte) :
    (d.takeHeaderByte b).hdrFill.toNat = d.hdrFill.toNat + 1 := by
  simp only [takeHeaderByte]
  bv_omega

theorem takeHeaderByte_buf (d : Decoder) (b : Byte) (i : Fin 12) :
    (d.takeHeaderByte b).hdrBuf[i] = if i.val = d.hdrFill.toNat then b else d.hdrBuf[i] := by
  simp only [takeHeaderByte, Fin.getElem_fin, Vector.getElem_setIfInBounds, eq_comm]

theorem takeEventByte_fill {d : Decoder} (h : d.evtFill.toNat ≤ 7) (b : Byte) :
    (d.takeEventByte b).evtFill.toNat = d.evtFill.toNat + 1 := by
  simp only [takeEventByte]
  bv_omega

theorem takeEventByte_buf (d : Decoder) (b : Byte) (i : Fin 8) :
    (d.takeEventByte b).evtBuf[i] = if i.val = d.evtFill.toNat then b else d.evtBuf[i] := by
  simp only [takeEventByte, Fin.getElem_fin, Vector.getElem_setIfInBounds, eq_comm]

/-- The eleven bytes already held stay where they are. -/
theorem takeHeaderByte_old {d : Decoder} (h : d.hdrFill = 11) (b : Byte) {i : Nat} (hi : i < 11) :
    (d.takeHeaderByte b).hdrBuf[i] = d.hdrBuf[i] := by
  have := takeHeaderByte_buf d b ⟨i, by omega⟩
  rw [h, if_neg (show ¬ i = (11 : BitVec 4).toNat from Nat.ne_of_lt hi)] at this
  exact this

/-- The twelfth byte comes last. -/
theorem takeHeaderByte_new {d : Decoder} (h : d.hdrFill = 11) (b : Byte) : (d.takeHeaderByte b).hdrBuf[11] = b := by
  have := takeHeaderByte_buf d b ⟨11, by omega⟩
  rw [h, if_pos (show 11 = (11 : BitVec 4).toNat from rfl)] at this
  exact this

/-- The seven bytes already held stay where they are. -/
theorem takeEventByte_old {d : Decoder} (h : d.evtFill = 7) (b : Byte) {i : Nat} (hi : i < 7) :
    (d.takeEventByte b).evtBuf[i] = d.evtBuf[i] := by
  have := takeEventByte_buf d b ⟨i, by omega⟩
  rw [h, if_neg (show ¬ i = (7 : BitVec 4).toNat from Nat.ne_of_lt hi)] at this
  exact this

/-- The eighth byte comes last. -/
theorem takeEventByte_new {d : Decoder} (h : d.evtFill = 7) (b : Byte) : (d.takeEventByte b).evtBuf[7] = b := by
  have := takeEventByte_buf d b ⟨7, by omega⟩
  rw [h, if_pos (show 7 = (7 : BitVec 4).toNat from rfl)] at this
  exact this

/-! ## Counting -/

/-- R110 as one comparison: the frame ends when the count, after the increment, is not below the declared one. -/
theorem countAndCheck_eq (d : Decoder) :
    d.countAndCheck =
      if d.expectedEvents.toNat ≤ (d.eventsRead + 1).toNat then cleared
      else { d with eventsRead := d.eventsRead + 1 } := by
  have hc : d.countEvent.frameComplete = true ↔ (d.eventsRead + 1).toNat = d.expectedEvents.toNat := by
    rw [BitVec.toNat_inj]
    exact beq_iff_eq
  have ho : d.countEvent.overrun = true ↔ d.expectedEvents.toNat < (d.eventsRead + 1).toNat := decide_eq_true_iff
  change (if d.countEvent.frameComplete = true then cleared else if d.countEvent.overrun = true then cleared
    else d.countEvent) = _
  split <;> rename_i h1
  · rw [hc] at h1
    rw [if_pos (by omega)]
  · rw [hc] at h1
    split <;> rename_i h2
    · rw [ho] at h2
      rw [if_pos (by omega)]
    · rw [ho] at h2
      rw [if_neg (by omega)]
      rfl

/-- What the end of an event leaves of the decoder. -/
theorem endOfEvent_eq (d : Decoder) (b : Byte) (skipping : Bool) :
    ({ (d.takeEventByte b).takeEvent with skippingFrame := skipping } : Decoder).countAndCheck =
      if d.expectedEvents.toNat ≤ (d.eventsRead + 1).toNat then cleared
      else
        { d with
          evtBuf := cleared.evtBuf, evtFill := 0, eventsRead := d.eventsRead + 1, skippingFrame := skipping } := by
  rw [countAndCheck_eq]
  rfl

/-! ## The invariant -/

theorem cleared_hdrBuf (i : Fin 12) : cleared.hdrBuf[i] = 0 := by revert i; decide

theorem cleared_evtBuf (i : Fin 8) : cleared.evtBuf[i] = 0 := by revert i; decide

theorem cleared_inv : cleared.Inv where
  hdrFillLe := by decide
  evtFillLe := by decide
  seeking := by decide
  reading := by decide
  hdrZero := by decide
  evtZero := by decide

theorem accept_inv (d : Decoder) (eventCount frameNumber : Word) : (d.accept eventCount frameNumber).Inv where
  hdrFillLe := by simp [accept]
  evtFillLe := by simp [accept]
  seeking := by simp [accept]
  reading := by
    intro _
    refine ⟨rfl, ?_⟩
    by_cases h : eventCount = 0
    · exact .inr ⟨h, rfl, by simp [accept, skippingAtAccept, h]⟩
    · refine .inl ?_
      simp only [accept]
      have : eventCount.toNat ≠ 0 := fun e => h (BitVec.eq_of_toNat_eq e)
      simpa using Nat.pos_of_ne_zero this
  hdrZero := fun i _ => cleared_hdrBuf i
  evtZero := fun i _ => cleared_evtBuf i

theorem takeHeaderByte_inv {d : Decoder} (hd : d.Inv) (hs : d.stage = .seekingHeader) (hf : d.hdrFill.toNat < 11)
    (b : Byte) : (d.takeHeaderByte b).Inv where
  hdrFillLe := by rw [takeHeaderByte_fill (by omega)]; omega
  evtFillLe := hd.evtFillLe
  seeking := hd.seeking
  reading := by intro h; rw [show d.stage = _ from h] at hs; cases hs
  hdrZero := by
    intro i hi
    rw [takeHeaderByte_fill (by omega)] at hi
    rw [takeHeaderByte_buf, if_neg (by omega)]
    exact hd.hdrZero i (by omega)
  evtZero := hd.evtZero

theorem takeEventByte_inv {d : Decoder} (hd : d.Inv) (hs : d.stage = .readingEvents) (hf : d.evtFill.toNat < 7)
    (b : Byte) : (d.takeEventByte b).Inv where
  hdrFillLe := hd.hdrFillLe
  evtFillLe := by rw [takeEventByte_fill (by omega)]; omega
  seeking := by intro h; rw [show d.stage = _ from h] at hs; cases hs
  reading := hd.reading
  hdrZero := hd.hdrZero
  evtZero := by
    intro i hi
    rw [takeEventByte_fill (by omega)] at hi
    rw [takeEventByte_buf, if_neg (by omega)]
    exact hd.evtZero i (by omega)

theorem slide_inv {d : Decoder} (hd : d.Inv) (hs : d.stage = .seekingHeader) (b : Byte) :
    (d.takeHeaderByte b).slide.Inv where
  hdrFillLe := Nat.le_refl 11
  evtFillLe := hd.evtFillLe
  seeking := hd.seeking
  reading := by intro h; rw [show d.stage = _ from h] at hs; cases hs
  hdrZero := by
    intro i hi
    have h11 : 11 ≤ i.val := hi
    have : i = (11 : Fin 12) := Fin.ext (by have := i.isLt; change i.val = 11; omega)
    rw [this]
    rfl
  evtZero := hd.evtZero

/-- The end of an event keeps the invariant, whatever it did to `skippingFrame` but clear it. -/
theorem endOfEvent_inv {d : Decoder} (hd : d.Inv) (hs : d.stage = .readingEvents) (b : Byte) (skipping : Bool) :
    ({ (d.takeEventByte b).takeEvent with skippingFrame := skipping } : Decoder).countAndCheck.Inv := by
  rw [countAndCheck_eq]
  split
  · exact cleared_inv
  · next h =>
    have h : ¬ d.expectedEvents.toNat ≤ (d.eventsRead + 1).toNat := h
    refine ⟨hd.hdrFillLe, by simp [takeEvent], ?_, ?_, hd.hdrZero, ?_⟩
    · intro e; rw [show d.stage = _ from e] at hs; cases hs
    · intro _; exact ⟨(hd.reading hs).1, .inl (by simpa [takeEvent, takeEventByte] using h)⟩
    · exact fun i _ => cleared_evtBuf i

end Decoder

/-! ## FEED, by cases -/

/-- In stage SeekingHeader, fewer than 12 bytes held after the byte. -/
theorem execFeed_header_partial {s : State} (hs : s.dec.stage = .seekingHeader) (hf : s.dec.hdrFill ≠ 11) (b : Byte) :
    execFeed b s = .next { s with dec := s.dec.takeHeaderByte b } := by
  have : ¬ s.dec.hdrFill + 1 = 12 := by intro e; exact hf (by bv_omega)
  simp only [execFeed, hs, feedHeaderByte, Decoder.takeHeaderByte]
  rw [if_neg this]

/-- In stage SeekingHeader, the twelfth byte. -/
theorem execFeed_header_full {s : State} (hs : s.dec.stage = .seekingHeader) (hf : s.dec.hdrFill = 11) (b : Byte) :
    execFeed b s = evaluateWindow { s with dec := s.dec.takeHeaderByte b } := by
  simp only [execFeed, hs, feedHeaderByte, Decoder.takeHeaderByte, hf]
  rfl

/-- In stage ReadingEvents, fewer than 8 bytes held after the byte. -/
theorem execFeed_event_partial {s : State} (hs : s.dec.stage = .readingEvents) (hf : s.dec.evtFill ≠ 7) (b : Byte) :
    execFeed b s = .next { s with dec := s.dec.takeEventByte b } := by
  have : ¬ s.dec.evtFill + 1 = 8 := by intro e; exact hf (by bv_omega)
  simp only [execFeed, hs, feedEventByte, Decoder.takeEventByte]
  rw [if_neg this]

/-- In stage ReadingEvents, the eighth byte. -/
theorem execFeed_event_full {s : State} (hs : s.dec.stage = .readingEvents) (hf : s.dec.evtFill = 7) (b : Byte) :
    execFeed b s = consumeEvent { s with dec := s.dec.takeEventByte b } := by
  simp only [execFeed, hs, feedEventByte, Decoder.takeEventByte, hf]
  rfl

/-- The window is accepted or slides, by its first four bytes. -/
theorem evaluateWindow_eq (s : State) :
    evaluateWindow s =
      .next (if le32 s.dec.hdrBuf[0] s.dec.hdrBuf[1] s.dec.hdrBuf[2] s.dec.hdrBuf[3] = s.magic then
        s.acceptHeader (le32 s.dec.hdrBuf[4] s.dec.hdrBuf[5] s.dec.hdrBuf[6] s.dec.hdrBuf[7])
          (le32 s.dec.hdrBuf[8] s.dec.hdrBuf[9] s.dec.hdrBuf[10] s.dec.hdrBuf[11])
      else s.slideWindow) := by
  unfold evaluateWindow
  rw [classifyHeader_headerWord]
  split <;> split <;> simp_all [execHdr, execSlide]

/-- The event is skipped, forwarded or unsupported, by the flag and its first byte; then it is counted. -/
theorem consumeEvent_eq (s : State) :
    consumeEvent s =
      .next (State.countAndCheck
        (if s.dec.skippingFrame = true then s.takeEvent
        else if s.dec.evtBuf[0] = 0 then
          s.takeEvent.forward s.dec.evtBuf[1] s.dec.evtBuf[2]
            (le32 s.dec.evtBuf[4] s.dec.evtBuf[5] s.dec.evtBuf[6] s.dec.evtBuf[7])
        else s.takeEvent.markUnsupported)) := by
  unfold consumeEvent
  rw [classifyEvent_eventWord]
  by_cases h : s.dec.skippingFrame = true
  · rw [if_pos h, if_pos h]
    rfl
  · rw [if_neg h, if_neg h]
    by_cases h0 : s.dec.evtBuf[0] = 0
    · rw [if_pos h0, if_pos h0]
      rfl
    · rw [if_neg h0, if_neg h0]
      rfl

/-- The eighth byte of an event, in one equation: the decoder counts the event and ends the frame or goes on, and by the
flag and the chip id the event is dropped, forwarded or marks the frame. -/
theorem execFeed_event_full_eq {s : State} (hs : s.dec.stage = .readingEvents) (hf : s.dec.evtFill = 7) (b : Byte) :
    let dec (skipping : Bool) : Decoder :=
      if s.dec.expectedEvents.toNat ≤ (s.dec.eventsRead + 1).toNat then Decoder.cleared
      else
        { s.dec with
          evtBuf := Decoder.cleared.evtBuf, evtFill := 0, eventsRead := s.dec.eventsRead + 1, skippingFrame := skipping }
    execFeed b s =
      .next (if s.dec.skippingFrame = true then { s with dec := dec true }
      else if s.dec.evtBuf[0] = 0 then
        { s with
          dec := dec false
          stats := { s.stats with writesForwarded := s.stats.writesForwarded + 1 }
          queue := s.queue.push (eventOf s.dec.evtBuf[1] s.dec.evtBuf[2]
            (le32 s.dec.evtBuf[4] s.dec.evtBuf[5] s.dec.evtBuf[6] b)) }
      else
        { s with
          dec := dec true
          stats := { s.stats with unsupportedChip := s.stats.unsupportedChip + 1 } }) := by
  intro dec
  have hd : ∀ skipping, ({ (s.dec.takeEventByte b).takeEvent with skippingFrame := skipping } : Decoder).countAndCheck =
      dec skipping := Decoder.endOfEvent_eq s.dec b
  rw [execFeed_event_full hs hf, consumeEvent_eq]
  simp only [Decoder.takeEventByte_old hf, Decoder.takeEventByte_new hf, Nat.reduceLT]
  change Host.Outcome.next (State.countAndCheck (if s.dec.skippingFrame = true then _ else _)) = _
  congr 1
  by_cases hk : s.dec.skippingFrame = true
  · rw [if_pos hk, if_pos hk, ← hd true, ← hk]
    rfl
  · rw [if_neg hk, if_neg hk, ← hd true, ← hd false]
    by_cases h0 : s.dec.evtBuf[0] = 0
    · rw [if_pos h0, if_pos h0, ← Bool.eq_false_iff.2 hk]
      rfl
    · rw [if_neg h0, if_neg h0]
      rfl

/-! ## What a FEED absorbs and pushes, by the same cases -/

theorem absorbedByWindow_eq (magic : Word) (d : Decoder) :
    absorbedByWindow magic d =
      if le32 d.hdrBuf[0] d.hdrBuf[1] d.hdrBuf[2] d.hdrBuf[3] = magic then
        absorbedAtAccept (le32 d.hdrBuf[4] d.hdrBuf[5] d.hdrBuf[6] d.hdrBuf[7])
      else [.magicMismatch] := by
  unfold absorbedByWindow
  rw [classifyHeader_headerWord]
  split <;> split <;> simp_all

theorem absorbedByEvent_eq (d : Decoder) (q : Queue) :
    absorbedByEvent d q =
      if d.skippingFrame = true then absorbedByCheck d
      else if d.evtBuf[0] = 0 then absorbedByPush q ++ absorbedByCheck d
      else .unsupportedChip :: absorbedByCheck d := by
  unfold absorbedByEvent
  rw [classifyEvent_eventWord]
  by_cases h : d.skippingFrame = true
  · rw [if_pos h, if_pos h]
  · rw [if_neg h, if_neg h]
    by_cases h0 : d.evtBuf[0] = 0
    · rw [if_pos h0, if_pos h0]
    · rw [if_neg h0, if_neg h0]
      rfl

theorem absorbedByFeed_header_partial {s : State} (hs : s.dec.stage = .seekingHeader) (hf : s.dec.hdrFill ≠ 11)
    (b : Byte) : absorbedByFeed b s = [] := by
  have : ¬ s.dec.hdrFill + 1 = 12 := by intro e; exact hf (by bv_omega)
  simp only [absorbedByFeed, hs, Decoder.takeHeaderByte]
  rw [if_neg this]

theorem absorbedByFeed_header_full {s : State} (hs : s.dec.stage = .seekingHeader) (hf : s.dec.hdrFill = 11)
    (b : Byte) : absorbedByFeed b s = absorbedByWindow s.magic (s.dec.takeHeaderByte b) := by
  simp only [absorbedByFeed, hs, Decoder.takeHeaderByte, hf]
  rfl

theorem absorbedByFeed_event_partial {s : State} (hs : s.dec.stage = .readingEvents) (hf : s.dec.evtFill ≠ 7)
    (b : Byte) : absorbedByFeed b s = [] := by
  have : ¬ s.dec.evtFill + 1 = 8 := by intro e; exact hf (by bv_omega)
  simp only [absorbedByFeed, hs, Decoder.takeEventByte]
  rw [if_neg this]

theorem absorbedByFeed_event_full {s : State} (hs : s.dec.stage = .readingEvents) (hf : s.dec.evtFill = 7)
    (b : Byte) : absorbedByFeed b s = absorbedByEvent (s.dec.takeEventByte b) s.queue := by
  simp only [absorbedByFeed, hs, Decoder.takeEventByte, hf]
  rfl

theorem pushedByFeed_seeking {d : Decoder} (hs : d.stage = .seekingHeader) (b : Byte) : pushedByFeed b d = [] := by
  simp only [pushedByFeed, hs]

theorem pushedByFeed_event_partial {d : Decoder} (hf : d.evtFill ≠ 7) (b : Byte) : pushedByFeed b d = [] := by
  have : ¬ d.evtFill + 1 = 8 := by intro e; exact hf (by bv_omega)
  unfold pushedByFeed
  split
  · rfl
  · exact if_neg this

theorem pushedByFeed_event_full {d : Decoder} (hs : d.stage = .readingEvents) (hf : d.evtFill = 7) (b : Byte) :
    pushedByFeed b d =
      if d.skippingFrame = false ∧ d.evtBuf[0] = 0 then
        [eventOf d.evtBuf[1] d.evtBuf[2] (le32 d.evtBuf[4] d.evtBuf[5] d.evtBuf[6] b)]
      else [] := by
  have h8 : (d.takeEventByte b).evtFill = 8 := by simp only [Decoder.takeEventByte, hf]; rfl
  simp only [pushedByFeed, hs, h8, if_true]
  rw [classifyEvent_eventWord]
  simp only [Decoder.takeEventByte_old hf, Decoder.takeEventByte_new hf, Nat.reduceLT]
  cases d.skippingFrame
  · by_cases h0 : d.evtBuf[0] = 0
    · simp only [h0, if_true, and_self, Bool.false_eq_true, if_false]
    · simp only [h0, and_false, Bool.false_eq_true, if_false]
  · simp only [if_true, Bool.true_eq_false, false_and, if_false]

/-- FEED touches the decoder group and the queue only. -/
theorem execFeed_completes (b : Byte) (s : State) :
    ∃ t, execFeed b s = .next t ∧ t = { s with dec := t.dec, stats := t.stats, queue := t.queue } := by
  cases hs : s.dec.stage
  · by_cases hf : s.dec.hdrFill = 11
    · rw [execFeed_header_full hs hf, evaluateWindow_eq]
      split <;> exact ⟨_, rfl, rfl⟩
    · exact ⟨_, execFeed_header_partial hs hf b, rfl⟩
  · by_cases hf : s.dec.evtFill = 7
    · rw [execFeed_event_full hs hf, consumeEvent_eq]
      split
      · exact ⟨_, rfl, rfl⟩
      · split <;> exact ⟨_, rfl, rfl⟩
    · exact ⟨_, execFeed_event_partial hs hf b, rfl⟩

end Sys2Proof.Machine
end

