-- ==== Sys2Proof/Laws/PerInstr.lean ====
section
/-! SUPPORT. Statements made per instruction, one lemma per constructor. -/

namespace Sys2Proof.Laws.EncodeWidth

/-- An instruction's word has the width spec/opcode_table.json gives its row; a row without bits (the two
micro-operations, R87) has no word. -/
def Statement (i : Instr) : Prop := ∀ magic : Word, ((encode magic i).map Presented.width).getD 0 = i.tableWidth

theorem hdr (a b : Word) : Statement (.hdr a b) := fun _ => rfl

theorem slide (w a b : Word) : Statement (.slide w a b) := fun _ => rfl

theorem evtWrite (a v p : Byte) (d : Word) : Statement (.evtWrite a v p d) := fun _ => rfl

theorem evtUnsup (c a v p : Byte) (d : Word) : Statement (.evtUnsup c a v p d) := fun _ => rfl

theorem evtSkip (c a v p : Byte) (d : Word) : Statement (.evtSkip c a v p d) := fun _ => rfl

theorem feed (b : Byte) : Statement (.feed b) := fun _ => rfl

theorem enq (a v : Byte) (d : Word) : Statement (.enq a v d) := fun _ => rfl

theorem dreset : Statement .dreset := fun _ => rfl

theorem qclear : Statement .qclear := fun _ => rfl

theorem apply (n : Word) : Statement (.apply n) := fun _ => rfl

theorem reset : Statement .reset := fun _ => rfl

theorem push (ev : RegisterWriteEvent) : Statement (.push ev) := fun _ => rfl

theorem frameReset : Statement .frameReset := fun _ => rfl

end Sys2Proof.Laws.EncodeWidth
end

