-- ==== Sys2Proof/Tests/Slice0.lean ====
section
/-! SUPPORT. The model's own tests: each expected result is a vector of spec/95_test_vectors.md or is worked out by hand
from a rule, and is one step (or one pair). After them stand the witnesses: for each statement with hypotheses, states and operands that
meet them, clause by clause. -/

namespace Sys2Proof.Tests

open Sys2Proof.Machine

/-! ## Helpers, in the vectors' notation (section 0 there) -/

/-- The reset state of the vectors, with their stand-in magic word. -/
def reset0 : State := { State.reset with magic := Config.magicT }

/-- `D(…)`: the decoder less its buffers. -/
structure DView where
  stage : Stage
  hdrFill : BitVec 4
  evtFill : BitVec 4
  expectedEvents : Word
  frameNumber : Word
  eventsRead : Word
  skippingFrame : Bool
deriving DecidableEq

/-- `Q(…)`: the queue with its live events in the place of its slots, the countdown as a number. -/
structure QView where
  wr : SlotIndex
  rd : SlotIndex
  empty : Bool
  cnt : Int
  live : List RegisterWriteEvent
deriving DecidableEq

/-- `D(…)` of a state. -/
def D (s : State) : DView :=
  ⟨s.dec.stage, s.dec.hdrFill, s.dec.evtFill, s.dec.expectedEvents, s.dec.frameNumber, s.dec.eventsRead,
    s.dec.skippingFrame⟩

/-- `D0`. -/
def D0 : DView := ⟨.seekingHeader, 0, 0, 0, 0, 0, false⟩

/-- `S(…)` of a state. -/
def S (s : State) : Stats := s.stats

/-- `Q(…)` of a state. -/
def Q (s : State) : QView := ⟨s.queue.wr, s.queue.rd, s.queue.empty, s.queue.cnt.toInt, s.queue.live⟩

/-- What APPLY returned. -/
def returned (s : State) : List (List EngineWrite) := s.applyLog

/-- Look at the next state of an outcome. -/
def after {α : Type} (o : Host.Outcome State Fault Refusal) (f : State → α) : Option α :=
  match o with
  | .next t => some (f t)
  | .fault _ => none
  | .refused _ => none

/-- A decoder that holds eleven header bytes. -/
def seek11 (b0 b1 b2 b3 b4 b5 b6 b7 b8 b9 b10 : Byte) : State :=
  { reset0 with
    dec := { Decoder.cleared with hdrBuf := #v[b0, b1, b2, b3, b4, b5, b6, b7, b8, b9, b10, 0], hdrFill := 11 } }

/-- A decoder inside a frame that holds seven event bytes. -/
def read7 (expected eventsRead : Word) (skipping : Bool) (b0 b1 b2 b3 b4 b5 b6 : Byte) : State :=
  { reset0 with
    dec := { Decoder.cleared with
      stage := .readingEvents, evtBuf := #v[b0, b1, b2, b3, b4, b5, b6, 0], evtFill := 7, expectedEvents := expected
      frameNumber := 2, eventsRead := eventsRead, skippingFrame := skipping } }

/-- A state with this queue. -/
def queued (buf : Memory) (wr rd : SlotIndex) (cnt : Word) : State :=
  { reset0 with queue := { buf := buf, wr := wr, rd := rd, empty := wr == rd, cnt := cnt } }

/-- The three events of S6, `[100, 50, 200]`. -/
def s6 : State :=
  queued [(0, ⟨24, 15, 100⟩), (1, ⟨0, 37, 50⟩), (2, ⟨4, 33, 200⟩)] 3 0 100

/-- A full queue: 255 events that all equal the unlisted one, slots 0 to 254. -/
def full : State := queued [] 255 0 0

/-- Inside a frame, one event queued, one more request to come. -/
def midFrame : State :=
  { read7 4 1 false 0 2 3 0 0x0A 0 0 with
    queue := (queued [(0, ⟨1, 17, 10⟩)] 1 0 10).queue, ports := [producerRequest (feedCommand 0)] }

/-! ## WellFormed (R79, R107): what the encoding cannot produce is refused -/

theorem test_slide_with_the_magic_word_is_ill_formed :
    (Instr.slide Config.magicT 1 1).wellFormed Config.magicT = false := by decide

theorem test_slide_with_another_word_is_well_formed :
    (Instr.slide 0x444953FF 1 1).wellFormed Config.magicT = true := by decide

theorem test_evtUnsup_with_chip_0_is_ill_formed : (Instr.evtUnsup 0 2 0x22 0 10).wellFormed Config.magicT = false := by
  decide

theorem test_evtUnsup_with_chip_1_is_well_formed : (Instr.evtUnsup 1 2 0x22 0 10).wellFormed Config.magicT = true := by
  decide

/-! ## Decoding, every row: words written out from R72, R73, R82, R83 (E1, E2, E3, E5, E6) -/

theorem test_decode_hdr : decodeTableWord 96 0x000000070000000331444953 = some (.hdr 3 7) := by decide

theorem test_decode_slide : decodeTableWord 96 0x00000009000000014449FF53 = some (.slide 0x4449FF53 1 9) := by decide

theorem test_decode_evtWrite : decodeTableWord 64 0x00000064000F1800 = some (.evtWrite 0x18 0x0F 0 100) := by decide

theorem test_decode_evtUnsup : decodeTableWord 64 0x0000000A00220201 = some (.evtUnsup 1 2 0x22 0 10) := by decide

/-- In a skipping frame the same word, and one of chip 0, are both EVT_SKIP. -/
theorem test_decode_evtSkip :
    decode Config.magicT true (.event 0x0000000A00220201) = .ok (.evtSkip 1 2 0x22 0 10) ∧
      decode Config.magicT true (.event 0x00000064000F1800) = .ok (.evtSkip 0 0x18 0x0F 0 100) := by decide

theorem test_decode_feed : decodeTableWord 56 0x0005300000000 = some (.feed 0x53) := by decide

theorem test_decode_feed_ignores_other_fields : decodeTableWord 56 0x0AB53DEADBEEF = some (.feed 0x53) := by decide

theorem test_decode_enq :
    decodeTableWord 56 0x1180F00000064 = some (.enq 0x18 0x0F 100) ∧
      decodeTableWord 56 0x1FF80FFFFFFFF = some (.enq 0xFF 0x80 0xFFFFFFFF) := by decide

theorem test_decode_dreset :
    decodeTableWord 56 0x2000000000000 = some .dreset ∧ decodeTableWord 56 0x2FFFFFFFFFFFF = some .dreset := by decide

theorem test_decode_qclear :
    decodeTableWord 56 0x3000000000000 = some .qclear ∧ decodeTableWord 56 0x3FFFFFFFFFFFF = some .qclear := by decide

theorem test_decode_apply : decodeTableWord 32 0x0000015E = some (.apply 350) := by decide

theorem test_decode_reset : decodeTableWord 8 1 = some .reset := by decide

/-- The two micro-operations have no encoding (R87): no width of a table word gives them. -/
theorem test_micro_operations_have_no_word :
    encode Config.magicT (.push ⟨1, 2, 3⟩) = none ∧ encode Config.magicT .frameReset = none ∧
      decodeTable 0 0 = .error .noSuchFormat := by decide

theorem test_rejects_by_name :
    decodeTable 8 0 = .error .resetNotAsserted ∧ decodeTable 56 0x4000000000000 = .error .outsideFormat ∧
      decodeBytes Config.magicT .seekingHeader false [0x53, 0x49, 0x44, 0x31] = .error .windowIncomplete := by decide

/-- E1, E3: the bytes of the wire structures, in arrival order. -/
theorem test_encode_bytes :
    headerBytes (encodeHeader Config.magicT 3 7) = [0x53, 0x49, 0x44, 0x31, 3, 0, 0, 0, 7, 0, 0, 0] ∧
      eventBytes (encodeEvent 1 2 0x22 0 10) = [0x01, 0x02, 0x22, 0x00, 0x0A, 0, 0, 0] := by decide

/-- E4. -/
theorem test_le32 : le32 0x78 0x56 0x34 0x12 = 0x12345678 ∧ le32 0 0 0 0x80 = 0x80000000 := by decide

/-- E5. -/
theorem test_register_truncation :
    [0xFF, 0x20, 0x24, 0x1F, 0x3F].map (fun a : Byte => (registerOf a).toNat) = [31, 0, 4, 31, 31] := by decide

/-- E7: `FRAME 7 { WR …; EVT …; WR … }` is the 36 bytes of V1. -/
theorem test_assemble :
    assemble Config.magicT (frame 7 [.wr 0x18 0x0F 100, .evt 0 0 0x25 0xAA 50, .wr 4 0x21 200]) =
      [0x53, 0x49, 0x44, 0x31, 3, 0, 0, 0, 7, 0, 0, 0, 0x00, 0x18, 0x0F, 0x00, 0x64, 0, 0, 0,
        0x00, 0x00, 0x25, 0xAA, 0x32, 0, 0, 0, 0x00, 0x04, 0x21, 0x00, 0xC8, 0, 0, 0] := by decide

/-! ## The wire rows, inside FEED -/

/-- V18 b and c: the twelfth byte accepts `HDR 1, 9`. -/
theorem test_hdr :
    let o := exec (.feed 0) (seek11 0x53 0x49 0x44 0x31 1 0 0 0 9 0 0)
    after o D = some ⟨.readingEvents, 0, 0, 1, 9, 0, false⟩ ∧ after o S = some ⟨1, 0, 0, 0⟩ := by decide

/-- V5 after byte 12: an empty frame is skipping at once. -/
theorem test_hdr_of_an_empty_frame :
    after (exec (.feed 0) (seek11 0x53 0x49 0x44 0x31 0 0 0 0 5 0 0)) D =
      some ⟨.readingEvents, 0, 0, 0, 5, 0, true⟩ := by decide

/-- V18 c: the window `FF 53 … 00` slides. -/
theorem test_slide :
    let o := exec (.feed 0) (seek11 0xFF 0x53 0x49 0x44 0x31 1 0 0 0 9 0)
    after o D = some ⟨.seekingHeader, 11, 0, 0, 0, 0, false⟩ ∧ after o S = some ⟨0, 0, 0, 0⟩ ∧
      after o (·.dec.hdrBuf) = some #v[0x53, 0x49, 0x44, 0x31, 1, 0, 0, 0, 9, 0, 0, 0] := by decide

/-- V10, its first event as the only one yet: the address is truncated. -/
theorem test_evtWrite :
    let o := exec (.feed 0) (read7 2 0 false 0 0xFF 0x80 0 0 0 0)
    after o D = some ⟨.readingEvents, 0, 0, 2, 2, 1, false⟩ ∧ after o S = some ⟨0, 0, 1, 0⟩ ∧
      after o Q = some ⟨1, 0, false, 0, [⟨31, 128, 0⟩]⟩ := by decide

/-- V16: a full queue drops the event, `writesForwarded` counts it all the same, the frame ends. -/
theorem test_evtWrite_into_a_full_queue :
    let s := { full with dec := (read7 1 0 false 0 5 5 0 5 0 0).dec }
    let o := exec (.feed 0) s
    after o D = some D0 ∧ after o S = some ⟨0, 0, 1, 0⟩ ∧ after o (·.queue) = some s.queue := by decide

/-- V4 after byte 28. -/
theorem test_evtUnsup :
    let o := exec (.feed 0) (read7 4 1 false 1 2 0x22 0 0x0A 0 0)
    after o D = some ⟨.readingEvents, 0, 0, 4, 2, 2, true⟩ ∧ after o S = some ⟨0, 1, 0, 0⟩ ∧
      after o Q = some ⟨0, 0, true, 0, []⟩ := by decide

/-- V4 after byte 36: chip 0 in a skipping frame is not forwarded. -/
theorem test_evtSkip :
    let o := exec (.feed 0) (read7 4 2 true 0 3 0x33 0 0x0A 0 0)
    after o D = some ⟨.readingEvents, 0, 0, 4, 2, 3, true⟩ ∧ after o S = some ⟨0, 0, 0, 0⟩ ∧
      after o Q = some ⟨0, 0, true, 0, []⟩ := by decide

/-- V5 after byte 20: the eighth filler byte ends the empty frame, and `EventOverrun` is absorbed. -/
theorem test_evtSkip_ends_an_empty_frame :
    let s := read7 0 0 true 0x53 0x49 0x44 0x31 1 0 0
    after (exec (.feed 0) s) D = some D0 ∧ absorbedBy (.feed 0) s = [.eventOverrun] := by decide

/-- The model's choice (log 8), in a state no operation leaves: the byte finds no place. -/
theorem test_feed_with_a_fill_no_operation_leaves :
    after (exec (.feed 0xAA) { reset0 with dec := { Decoder.cleared with hdrFill := 13 } }) (·.dec.hdrBuf) =
      some Decoder.cleared.hdrBuf := by decide

/-! ## The operations -/

/-- V18 a, its first byte: nothing is examined. -/
theorem test_feed_header_byte :
    let o := exec (.feed 0x53) reset0
    after o D = some ⟨.seekingHeader, 1, 0, 0, 0, 0, false⟩ ∧ after o (·.dec.hdrBuf[0]) = some 0x53 := by decide

/-- V11, the last byte before DRESET: `00 02 02`. -/
theorem test_feed_event_byte :
    let s := { reset0 with dec := { Decoder.cleared with
      stage := .readingEvents, evtBuf := #v[0, 2, 0, 0, 0, 0, 0, 0], evtFill := 2, expectedEvents := 2, eventsRead := 1 } }
    let o := exec (.feed 2) s
    after o D = some ⟨.readingEvents, 0, 3, 2, 0, 1, false⟩ ∧ after o (·.dec.evtBuf[2]) = some 2 := by decide

/-- V22, second line. -/
theorem test_enq :
    let o := exec (.enq 0xFF 0x80 0xFFFFFFFF) reset0
    after o Q = some ⟨1, 0, false, -1, [⟨31, 128, 4294967295⟩]⟩ ∧ after o S = some ⟨0, 0, 0, 0⟩ := by decide

/-- V15: a push behind a live event does not touch the countdown. -/
theorem test_enq_behind_a_live_event :
    after (exec (.enq 2 2 7) (queued [(0, ⟨1, 1, 100⟩)] 1 0 70)) Q =
      some ⟨2, 0, false, 70, [⟨1, 1, 100⟩, ⟨2, 2, 7⟩]⟩ := by decide

/-- V11: the Stats and the queue keep their values. -/
theorem test_dreset :
    let s := { queued [(0, ⟨1, 1, 10⟩)] 1 0 10 with dec := (read7 2 1 false 0 2 2 0 0 0 0).dec, stats := ⟨1, 0, 1, 0⟩ }
    let o := exec .dreset s
    after o (·.dec) = some Decoder.cleared ∧ after o S = some ⟨1, 0, 1, 0⟩ ∧
      after o Q = some ⟨1, 0, false, 10, [⟨1, 1, 10⟩]⟩ := by decide

/-- V20. -/
theorem test_qclear :
    let o := exec .qclear (queued [(4, ⟨1, 1, 1⟩)] 9 4 33)
    after o Q = some ⟨0, 0, true, 0, []⟩ ∧ after o (·.queue.buf) = some [(4, ⟨1, 1, 1⟩)] := by decide

/-- S6: all three in one call. -/
theorem test_apply :
    let o := exec (.apply 350) s6
    after o Q = some ⟨3, 3, true, 0, []⟩ ∧ after o returned = some [[⟨24, 15⟩, ⟨0, 37⟩, ⟨4, 33⟩]] := by decide

/-- V9c: a carried delay with bit 31 set is due at once. -/
theorem test_apply_signed_carry :
    let o := exec (.apply 5) (queued [(0, ⟨1, 1, 5⟩), (1, ⟨2, 2, 0xFFFFFFFF⟩)] 2 0 5)
    after o Q = some ⟨2, 2, true, 0, []⟩ ∧ after o returned = some [[⟨1, 1⟩, ⟨2, 2⟩]] := by decide

/-- V23. -/
theorem test_reset :
    let s := { queued [(0, ⟨1, 17, 10⟩)] 1 0 10 with dec := (read7 2 1 true 0 2 2 0 0 0 0).dec, stats := ⟨1, 1, 1, 0⟩ }
    let o := exec .reset s
    after o D = some D0 ∧ after o S = some ⟨0, 0, 0, 0⟩ ∧ after o Q = some ⟨0, 0, true, 0, []⟩ := by decide

/-- V6: the 256th push meets a full queue. -/
theorem test_push_on_a_full_queue :
    after (exec (.push ⟨31, 255, 255⟩) full) (·.queue) = some full.queue ∧ absorbedBy (.push ⟨31, 255, 255⟩) full = [.queueFull] := by decide

/-- V13: the index wraps, slot 255 then slot 0. -/
theorem test_push_wraps :
    after (exec (.push ⟨6, 6, 1⟩) (queued [(254, ⟨4, 4, 1⟩)] 255 254 1)) Q =
      some ⟨0, 254, false, 1, [⟨4, 4, 1⟩, ⟨6, 6, 1⟩]⟩ := by decide

theorem test_frameReset :
    after (exec .frameReset (read7 2 1 true 0 2 2 0 0 0 0)) (·.dec) = some Decoder.cleared := by decide

/-! ## The ports -/

/-- V23: RESET overrides the FEED presented with it. -/
theorem test_reset_overrides :
    after (step { reset0 with ports := [{ rst := true, producer := some (feedCommand 0x53), consumer := none }] }) D =
      some D0 := by decide

/-- P5, both orders. -/
theorem test_pair_orders :
    let r : PortRequest := { rst := false, producer := some 0x105050000000A, consumer := some 10 }
    let p := step { reset0 with arb := .producerFirst, ports := [r] }
    let c := step { reset0 with arb := .consumerFirst, ports := [r] }
    after p returned = some [[⟨5, 5⟩]] ∧ after p Q = some ⟨1, 1, true, 0, []⟩ ∧ after c returned = some [[]] ∧
      after c Q = some ⟨1, 0, false, 10, [⟨5, 5, 10⟩]⟩ := by decide

/-- R130, R134 (log 26): a push onto a full queue, paired with an APPLY that pops, is dropped or kept by the order. -/
theorem test_pair_on_a_full_queue :
    let r : PortRequest := { rst := false, producer := some (encodeCommand 0b01#2 6 6 7), consumer := some 0 }
    let s := { queued [(0, ⟨1, 1, 0⟩), (1, ⟨2, 2, 9⟩)] 255 0 0 with ports := [r] }
    after (step { s with arb := .producerFirst }) (fun t => (t.queue.wr, t.queue.rd)) = some (255, 1) ∧
      after (step { s with arb := .consumerFirst }) (fun t => (t.queue.wr, t.queue.rd)) = some (0, 1) := by decide

/-- R133, R136, R137 (log 26): a push behind the one event that the APPLY pops 3 cycles late carries or seeds afresh. -/
theorem test_pair_behind_the_last_event :
    let r : PortRequest := { rst := false, producer := some (encodeCommand 0b01#2 6 6 7), consumer := some 8 }
    let s := { queued [(0, ⟨1, 1, 5⟩)] 1 0 5 with ports := [r] }
    after (step { s with arb := .producerFirst }) Q = some ⟨2, 1, false, 4, [⟨6, 6, 7⟩]⟩ ∧
      after (step { s with arb := .consumerFirst }) Q = some ⟨2, 1, false, 7, [⟨6, 6, 7⟩]⟩ := by decide

/-- R85: inside a frame, with an event pending: every output, `st_stage` 1. -/
theorem test_status :
    ({ midFrame with stats := ⟨1, 2, 3, 0⟩ } : State).status = ⟨1, 2, 3, 0, 10, 0, 1⟩ := by decide

/-- A table word placed by `withFetchWord` is the operation of the very next step, on each port and each wire form. -/
theorem test_withFetchWord :
    after (step (State.reset.withFetchWord 96 0x000000070000000331444953)) D =
        some ⟨.readingEvents, 0, 0, 3, 7, 0, false⟩ ∧
      after (step (State.reset.withFetchWord 64 0x00000064000F1800)) Q = some ⟨1, 0, false, 100, [⟨24, 15, 100⟩]⟩ ∧
      after (step (State.reset.withFetchWord 64 0x0000000A00220201)) D =
        some ⟨.readingEvents, 0, 0, 2, 0, 1, true⟩ ∧
      after (step (State.reset.withFetchWord 56 0x1180F00000064)) Q = some ⟨1, 0, false, 100, [⟨24, 15, 100⟩]⟩ ∧
      after (step (State.reset.withFetchWord 32 0x0000015E)) returned = some [[]] ∧
      after (step (State.reset.withFetchWord 8 1)) D = some D0 := by decide

/-- V24: due points 0, 10, 35 with operand 16 (P1's queue, before RENDER). -/
theorem test_dues : (queued [(0, ⟨24, 15, 0⟩), (1, ⟨0, 37, 10⟩), (2, ⟨4, 33, 25⟩)] 3 0 0).queue.dues = [0, 10, 35] := by
  decide

/-! ## Witnesses: the hypotheses of the statements can be met

`wit_<Statement>` and, where a statement has several clauses, `wit_<Statement>_<clause>`. A boundary of a range stands
beside an inner value. -/

/-- Inside a skipping frame, two events to go, the next one begun. -/
def midSkip : State :=
  { reset0 with dec := { Decoder.cleared with
      stage := .readingEvents, evtBuf := #v[0x53, 0x49, 0, 0, 0, 0, 0, 0], evtFill := 2, expectedEvents := 4
      eventsRead := 2, skippingFrame := true } }

theorem queued_inv {buf : Memory} {wr rd : SlotIndex} {cnt : Word} (h : buf.wf = true) (h' : wr = rd → cnt = 0) :
    (queued buf wr rd cnt).queue.Inv where
  bufWf := h
  emptyIff := by
    change (wr == rd) = true ↔ rd = wr
    rw [beq_iff_eq, eq_comm]
  idleCnt := fun e => h' (beq_iff_eq.1 e)

theorem s6_inv : s6.queue.Inv := queued_inv (by decide) (by decide)

theorem full_inv : full.queue.Inv := queued_inv (by decide) (by decide)

theorem read7_inv (b0 b1 b2 b3 b4 b5 b6 : Byte) {expected eventsRead : Word} {skipping : Bool}
    (h : eventsRead.toNat < expected.toNat ∨ (expected = 0 ∧ eventsRead = 0 ∧ skipping = true)) :
    (read7 expected eventsRead skipping b0 b1 b2 b3 b4 b5 b6).dec.Inv where
  hdrFillLe := Nat.zero_le _
  evtFillLe := Nat.le_refl _
  seeking := fun e => by cases e
  reading := fun _ => ⟨rfl, h⟩
  hdrZero := fun i _ => Decoder.cleared_hdrBuf i
  evtZero := fun i hi => by
    have : i = (7 : Fin 8) := Fin.ext (by have := i.isLt; change 7 ≤ i.val at hi; change i.val = 7; omega)
    rw [this]
    rfl

/-! Invariants and runs -/

theorem wit_EveryStepKeepsTheInvariant : midFrame.Inv ∧ ∃ t, step midFrame = .next t :=
  ⟨⟨read7_inv 0 2 3 0 0x0A 0 0 (.inl (by decide)), queued_inv (by decide) (by decide), rfl⟩, _, rfl⟩

theorem wit_StatsOnlyCountUp :
    (∃ t, exec .reset midFrame = .next t) ∧ (∃ t, exec (.feed 0) midFrame = .next t) ∧
      ∃ t, exec (.apply 0) midFrame = .next t := ⟨⟨_, rfl⟩, ⟨_, rfl⟩, ⟨_, rfl⟩⟩

theorem wit_EngineSeesPushesInOrder : s6.queue.Inv ∧ pushedByAll [.apply 350, .enq 1 2 3, .qclear] s6 = [⟨1, 2, 3⟩] :=
  ⟨s6_inv, by decide⟩

theorem wit_NothingIsLostWithoutAClear :
    let ops : List Instr := [.apply 100, .push ⟨1, 2, 3⟩]
    s6.queue.Inv ∧ .qclear ∉ ops ∧ .reset ∉ ops ∧ s6.queue.live.length + (pushedByAll ops s6).length ≤ 255 :=
  ⟨s6_inv, by decide, by decide, by decide⟩

/-- At the bound: 254 events and one push. -/
theorem wit_NothingIsLostWithoutAClear_at_255 :
    let s := queued [] 254 0 0
    s.queue.Inv ∧ s.queue.live.length + (pushedByAll [.push ⟨1, 2, 3⟩] s).length = 255 := by
  refine ⟨queued_inv (by decide) (by decide), ?_⟩
  rw [Queue.length_live]
  rfl

theorem wit_EachSideWritesOnlyItsOwn :
    (∃ t, exec (.apply 100) s6 = .next t) ∧ (∃ t, exec (.apply 1) reset0 = .next t ∧ reset0.queue.empty = true) ∧
      (∃ t, exec (.feed 0) midFrame = .next t ∧ midFrame.queue.buf.wf = true ∧ midFrame.queue.empty = false) ∧
      (∃ t, exec (.enq 1 2 3) full = .next t ∧ full.queue.buf.wf = true ∧ full.queue.isFull = true) ∧
      (∃ t, exec (.push ⟨1, 2, 3⟩) s6 = .next t ∧ s6.queue.buf.wf = true) ∧
      (∃ t, exec .dreset midFrame = .next t) ∧ (∃ t, exec .qclear midFrame = .next t) ∧
      ∃ t t', exec .reset midFrame = .next t ∧ exec .reset full = .next t' :=
  ⟨⟨_, rfl⟩, ⟨_, rfl, rfl⟩, ⟨_, rfl, rfl, rfl⟩, ⟨_, rfl, rfl, rfl⟩, ⟨_, rfl, by decide⟩, ⟨_, rfl⟩, ⟨_, rfl⟩, _, _, rfl, rfl⟩

theorem wit_ParametersAreNeverWritten :
    (∃ t, exec (.enq 1 2 3) reset0 = .next t ∧ ∀ n, Instr.enq 1 2 3 ≠ .apply n) ∧ (∃ t, step midFrame = .next t) :=
  ⟨⟨_, rfl, fun _ => by simp⟩, _, rfl⟩

/-- Two states that differ in `frameNumber`, in a stale byte and in a slot that is not live. -/
theorem wit_DeadStateNeverMatters :
    let s' : State :=
      { s6 with
        dec := { s6.dec with frameNumber := 9, hdrBuf := #v[1, 0, 0, 0, 0, 0, 0, 0, 0, 0, 0, 0] }
        queue := { s6.queue with buf := s6.queue.buf ++ [(7, ⟨7, 7, 7⟩)] } }
    s6 ≠ s' ∧ s6.queue.Inv ∧ s'.queue.Inv ∧ s6.Alike s' := by
  refine ⟨by decide, s6_inv, ⟨by decide, by decide, by decide⟩, ?_⟩
  exact ⟨⟨rfl, rfl, rfl, rfl, rfl, rfl, by decide, by decide⟩, ⟨rfl, rfl, rfl, rfl, by decide⟩, rfl, rfl, rfl, rfl, rfl, rfl⟩

/-! The decoder -/

/-- Clauses "below 11" (at 0 and 10) and "at 11". -/
theorem wit_FeedAccumulatesHeaderBytes :
    let s0 := reset0
    let s10 := { reset0 with dec := { Decoder.cleared with hdrFill := 10 } }
    let s11 := seek11 0x53 0x49 0x44 0x31 1 0 0 0 9 0 0
    (s0.dec.stage = .seekingHeader ∧ s0.dec.hdrFill.toNat < 11) ∧
      (s10.dec.stage = .seekingHeader ∧ s10.dec.hdrFill.toNat < 11) ∧
      (s11.dec.stage = .seekingHeader ∧ s11.dec.hdrFill.toNat = 11) := by decide

/-- Clauses "below 7" (at 2) and "at 7". -/
theorem wit_FeedAccumulatesEventBytes :
    (midSkip.dec.stage = .readingEvents ∧ midSkip.dec.evtFill.toNat < 7) ∧
      (midFrame.dec.stage = .readingEvents ∧ midFrame.dec.evtFill.toNat = 7) := by decide

theorem wit_MagicWindowIsAccepted :
    let s := seek11 0x53 0x49 0x44 0x31 1 0 0 0 9 0 0
    s.dec.stage = .seekingHeader ∧ s.dec.hdrFill = 11 ∧
      le32 s.dec.hdrBuf[0] s.dec.hdrBuf[1] s.dec.hdrBuf[2] s.dec.hdrBuf[3] = s.magic := by decide

theorem wit_SlidingWindowResynchronises_mismatch :
    let s := seek11 0xFF 0x53 0x49 0x44 0x31 1 0 0 0 9 0
    s.dec.stage = .seekingHeader ∧ s.dec.hdrFill = 11 ∧
      le32 s.dec.hdrBuf[0] s.dec.hdrBuf[1] s.dec.hdrBuf[2] s.dec.hdrBuf[3] ≠ s.magic := by decide

/-- The second part, with P2's garbage `53` before the header, and with none. -/
theorem wit_SlidingWindowResynchronises_garbage :
    let garbage : List Byte := [0x53]
    let stream := garbage ++ headerBytes (encodeHeader reset0.magic 3 2)
    reset0.dec = Decoder.cleared ∧
      (∀ j < garbage.length, ∀ b0 b1 b2 b3 rest, stream.drop j = b0 :: b1 :: b2 :: b3 :: rest →
        le32 b0 b1 b2 b3 ≠ reset0.magic) ∧
      ∀ j < ([] : List Byte).length, ∀ b0 b1 b2 b3 rest,
        (headerBytes (encodeHeader reset0.magic 3 2)).drop j = b0 :: b1 :: b2 :: b3 :: rest →
        le32 b0 b1 b2 b3 ≠ reset0.magic := by
  refine ⟨rfl, ?_, fun j hj => absurd hj (Nat.not_lt_zero j)⟩
  intro j hj b0 b1 b2 b3 rest h
  obtain rfl : j = 0 := Nat.lt_one_iff.1 hj
  have hbytes : headerBytes (encodeHeader reset0.magic 3 2) = [0x53, 0x49, 0x44, 0x31, 3, 0, 0, 0, 2, 0, 0, 0] := by
    decide
  simp only [hbytes, List.drop_zero, List.cons_append, List.nil_append, List.cons.injEq] at h
  obtain ⟨rfl, rfl, rfl, rfl, -⟩ := h
  decide

/-- Both clauses: the frame's last event, and one with two more to come and the bytes of both. -/
theorem wit_UnsupportedChipMarksTheFrame :
    let last := read7 1 0 false 1 2 0x22 0 0x0A 0 0
    let more := read7 4 1 false 1 2 0x22 0 0x0A 0 0
    (last.dec.stage = .readingEvents ∧ last.dec.evtFill = 7 ∧ last.dec.skippingFrame = false ∧ last.dec.evtBuf[0] ≠ 0 ∧
        last.dec.expectedEvents.toNat ≤ (last.dec.eventsRead + 1).toNat) ∧
      (more.dec.stage = .readingEvents ∧ more.dec.evtFill = 7 ∧ more.dec.skippingFrame = false ∧ more.dec.evtBuf[0] ≠ 0 ∧
        (more.dec.eventsRead + 1).toNat < more.dec.expectedEvents.toNat ∧
        after (exec (.feed 0) more) (·.dec.bytesLeft) = some 16 ∧ (List.replicate 16 (0 : Byte)).length = 16) := by decide

/-- Both clauses: one byte short of the frame's end (14 bytes left), and the end; and the empty frame, with the last of
its eight bytes. -/
theorem wit_SkippingFrameForwardsNothing :
    let e := { reset0 with dec := Decoder.cleared.accept 0 5 }
    midSkip.dec.stage = .readingEvents ∧ midSkip.dec.skippingFrame = true ∧ midSkip.dec.evtFill.toNat ≤ 7 ∧
      midSkip.dec.eventsRead.toNat < max midSkip.dec.expectedEvents.toNat 1 ∧
      (List.replicate 13 (0x53 : Byte)).length < midSkip.dec.bytesLeft ∧
      (List.replicate 14 (0x53 : Byte)).length = midSkip.dec.bytesLeft ∧
      (e.dec.stage = .readingEvents ∧ e.dec.skippingFrame = true ∧ e.dec.evtFill.toNat ≤ 7 ∧
        e.dec.expectedEvents = 0 ∧ e.dec.eventsRead.toNat < max e.dec.expectedEvents.toNat 1 ∧
        (List.replicate 7 (0x53 : Byte)).length < e.dec.bytesLeft ∧
        (List.replicate 8 (0x53 : Byte)).length = e.dec.bytesLeft) := by decide

/-- With room in the queue, and with the queue full. -/
theorem wit_SupportedEventIsForwarded :
    let s' := { full with dec := midFrame.dec }
    (midFrame.dec.stage = .readingEvents ∧ midFrame.dec.evtFill = 7 ∧ midFrame.dec.skippingFrame = false ∧
        midFrame.dec.evtBuf[0] = 0 ∧ midFrame.queue.isFull = false) ∧
      s'.dec = midFrame.dec ∧ s'.queue.isFull = true := by decide

/-- The clauses meet at `eventsRead + 1 = expectedEvents`: 1 of 1 ends the frame, 2 of 4 does not, an overrun does. -/
theorem wit_EveryEventIsCountedAndChecked :
    let one := read7 1 0 false 0 0 0 0 0 0 0
    let none := read7 0 0 true 0 0 0 0 0 0 0
    (one.dec.evtFill = 7 ∧ one.dec.expectedEvents.toNat = (one.dec.eventsRead + 1).toNat) ∧
      (none.dec.evtFill = 7 ∧ none.dec.expectedEvents.toNat < (none.dec.eventsRead + 1).toNat) ∧
      (midFrame.dec.evtFill = 7 ∧ (midFrame.dec.eventsRead + 1).toNat < midFrame.dec.expectedEvents.toNat) := by decide

/-- Inside a frame (17 bytes left), and an empty frame (8 left). -/
theorem wit_FrameTakesItsDeclaredBytes :
    let s := read7 4 1 false 0 2 3 0 0x0A 0 0
    let e := { reset0 with dec := Decoder.cleared.accept 0 5 }
    s.dec.Inv ∧ s.dec.stage = .readingEvents ∧ s.dec.bytesLeft = 17 ∧ e.dec.Inv ∧ e.dec.stage = .readingEvents ∧
      e.dec.bytesLeft = 8 :=
  ⟨read7_inv 0 2 3 0 0x0A 0 0 (.inl (by decide)), rfl, by decide, Decoder.accept_inv Decoder.cleared 0 5, rfl, by decide⟩

theorem wit_EmptyFrameCostsTwentyBytes :
    reset0.dec = Decoder.cleared ∧ ([0x53, 0x49, 0x44, 0x31, 1, 0, 0, 0] : List Byte).length = 8 := by decide

theorem wit_WholeFrameForwardsItsEventsInOrder :
    reset0.dec = Decoder.cleared ∧ 0 < [((0x18, 0x0F, 0, 100) : Byte × Byte × Byte × Word)].length ∧
      [((0x18, 0x0F, 0, 100) : Byte × Byte × Byte × Word)].length < 2 ^ 32 := ⟨rfl, by decide, by decide⟩

theorem wit_DecodingIsIndependentOfTheQueue :
    reset0.queue ≠ s6.queue ∧ reset0.dec = s6.dec ∧ reset0.stats = s6.stats ∧ reset0.magic = s6.magic := by decide

/-- Operations of each kind; the first byte completes an event, the second begins the next. -/
theorem wit_ChunkingDoesNotMatter_any_bytes :
    let ops : List Instr := [.feed 0, .apply 5, .enq 1 2 3, .feed 0x53, .qclear]
    (∀ i ∈ ops, (∃ b, i = .feed b) ∨ (∃ a v d, i = .enq a v d) ∨ i = .qclear ∨ ∃ n, i = .apply n) ∧
      streamOf ops = [0, 0x53] ∧ after (execAll ops midFrame) (·.dec.evtFill) = some 1 ∧
      decodedByAll ops midFrame = [⟨2, 3, 10⟩] := by
  refine ⟨?_, by decide⟩
  simp

/-- E7's first event as a frame of one, cut inside the header and inside the event. -/
theorem wit_ChunkingDoesNotMatter_one_frame :
    let ops : List Instr :=
      [0x53, 0x49].map .feed ++ [.enq 1 2 3, .apply 7] ++ [0x44, 0x31, 1, 0, 0, 0, 7, 0, 0, 0, 0x00, 0x18].map .feed ++
        [.qclear] ++ [0x0F, 0x00, 0x64, 0, 0, 0].map .feed
    let events : List (Byte × Byte × Byte × Word) := [(0x18, 0x0F, 0, 100)]
    (∀ i ∈ ops, (∃ b, i = .feed b) ∨ (∃ a v d, i = .enq a v d) ∨ i = .qclear ∨ ∃ n, i = .apply n) ∧
      reset0.dec = Decoder.cleared ∧ 0 < events.length ∧ events.length < 2 ^ 32 ∧
      streamOf ops = assemble reset0.magic
        (frame 7 (events.map fun e => StreamItem.evt 0 e.1 e.2.1 e.2.2.1 e.2.2.2)) := by
  refine ⟨?_, rfl, by decide, by decide, by decide⟩
  simp

theorem wit_BytesNeverDisturbTheQueue : s6.queue.Inv ∧ ∃ t, feeds [0x53, 0x49] s6 = .next t := ⟨s6_inv, _, rfl⟩

/-- Both sides of the equivalence. -/
theorem wit_FeedAbsorbsAtMostOneCondition :
    let e := read7 0 0 true 0x53 0x49 0x44 0x31 1 0 0
    (e.dec.Inv ∧ absorbedBy (.feed 0) e = [.eventOverrun]) ∧
      (reset0.dec.Inv ∧ absorbedBy (.feed 0x53) reset0 = []) :=
  ⟨⟨read7_inv 0x53 0x49 0x44 0x31 1 0 0 (.inr (by decide)), by decide⟩, Decoder.cleared_inv, by decide⟩

/-! The queue -/

/-- Full, and with 254 live events. -/
theorem wit_PushWritesOneSlotOrNothing :
    (full.queue.buf.wf = true ∧ full.queue.wr + 1 = full.queue.rd) ∧
      ((queued [] 254 0 0).queue.buf.wf = true ∧ (queued [] 254 0 0).queue.wr + 1 ≠ (queued [] 254 0 0).queue.rd) := by
  decide

theorem wit_FullQueueDropsSilently :
    full.queue.liveCount = 255 ∧ (queued [] 254 0 0).queue.liveCount = 254 ∧ reset0.queue.Inv ∧
      reset0.queue.empty = true := ⟨by decide, by decide, Queue.initial_inv, rfl⟩

theorem wit_PushAppendsToTheLiveEvents :
    (s6.queue.Inv ∧ s6.queue.liveCount < 255) ∧
      ((queued [] 254 0 0).queue.Inv ∧ (queued [] 254 0 0).queue.liveCount = 254) :=
  ⟨⟨s6_inv, by decide⟩, queued_inv (by decide) (by decide), by decide⟩

/-- The three clauses: not due (at 1 cycle to go), the last event due, the head due with more behind it. -/
theorem wit_ApplyFollowsItsLoop :
    let last := queued [(0, ⟨1, 1, 5⟩)] 1 0 5
    (s6.queue.empty = false ∧ 0 < (s6.queue.cnt - 99).toInt) ∧
      (last.queue.empty = false ∧ (last.queue.cnt - 5).toInt ≤ 0 ∧ last.queue.rd + 1 = last.queue.wr) ∧
      (s6.queue.empty = false ∧ (s6.queue.cnt - 100).toInt ≤ 0 ∧ s6.queue.rd + 1 ≠ s6.queue.wr) := by decide

theorem wit_ApplyLeavesNothingDue :
    (s6.queue.empty = true ↔ s6.queue.rd = s6.queue.wr) ∧ reset0.queue.empty = true := ⟨s6_inv.emptyIff, rfl⟩

theorem wit_ApplyIsFifo : s6.queue.Inv ∧ s6.queue.live.map (·.register) = [24, 0, 4] := ⟨s6_inv, by decide⟩

/-- `APPLY 100` leaves S6's queue not empty. -/
theorem wit_CountdownAccountsForEveryDelay :
    s6.queue.Inv ∧ after (exec (.apply 100) s6) (·.queue.empty) = some false := ⟨s6_inv, by decide⟩

/-- S6: the due points are 100, 150, 350, inside the no-wrap range; an operand between two of them, and the largest. -/
theorem wit_ApplyMeetsTheSchedule :
    s6.queue.Inv ∧ s6.queue.dues = [100, 150, 350] ∧ s6.queue.noWrap ∧ (200 : Word).toNat < 2 ^ 31 ∧
      (0x7FFFFFFF : Word).toNat < 2 ^ 31 :=
  ⟨s6_inv, by decide, by unfold Queue.noWrap; decide, by decide, by decide⟩

theorem wit_SplittingCyclesDoesNotMatter :
    s6.queue.Inv ∧ s6.queue.noWrap ∧ (120 : Word).toNat + (230 : Word).toNat < 2 ^ 31 :=
  ⟨s6_inv, by unfold Queue.noWrap; decide, by decide⟩

/-- P1: operand 16, four samples. -/
theorem wit_RenderQuantisesToTheOperand :
    let s := queued [(0, ⟨24, 15, 0⟩), (1, ⟨0, 37, 10⟩), (2, ⟨4, 33, 25⟩)] 3 0 0
    s.queue.Inv ∧ s.queue.noWrap ∧ 0 < (16 : Word).toNat ∧ 4 * (16 : Word).toNat < 2 ^ 31 :=
  ⟨queued_inv (by decide) (by decide), by unfold Queue.noWrap; decide, by decide, by decide⟩

/-- At the boundary, V9 and V9d. -/
theorem wit_DelayWithBit31IsNegative :
    reset0.queue.Inv ∧ reset0.queue.empty = true ∧ 2 ^ 31 ≤ (⟨1, 1, 0x80000000⟩ : RegisterWriteEvent).delayCycles.toNat :=
  ⟨Queue.initial_inv, rfl, by decide⟩

theorem wit_IdleTimeIsNotCharged : (reset0.queue.Inv ∧ reset0.queue.empty = true) ∧ s6.queue.empty = false :=
  ⟨⟨Queue.initial_inv, rfl⟩, rfl⟩

/-- Both sides: 99 and 100 cycles against a countdown of 100. -/
theorem wit_StatusCountdownTellsTheCyclesToGo :
    s6.queue.Inv ∧ s6.status.empty = 0 ∧ 0 < s6.status.cnt.toInt ∧
      (¬ s6.status.cnt.toNat ≤ (99 : Word).toNat ∧ s6.status.cnt.toNat ≤ (100 : Word).toNat) :=
  ⟨s6_inv, by decide⟩

/-! The ports -/

/-- No request, and the four clauses of a request. -/
theorem wit_StepRunsTheDecodedCommand :
    reset0.ports = [] ∧
    decode reset0.magic reset0.dec.skippingFrame (.producer 0x1180F00000064) = .ok (.enq 0x18 0x0F 100) ∧
      decode reset0.magic reset0.dec.skippingFrame (.consumer 350) = .ok (.apply 350) ∧
      (resetRequest 1).rst = true ∧ (resetRequest 0) = { rst := false, producer := none, consumer := none } ∧
      ({ reset0 with ports := [producerRequest 0x1180F00000064] } : State).ports =
        { rst := false, producer := some 0x1180F00000064, consumer := none } :: [] := by decide

/-- Both clauses: a window that is completed, an event that is completed. -/
theorem wit_StepRunsTheCompletedWireRow :
    let h := { seek11 0x53 0x49 0x44 0x31 3 0 0 0 7 0 0 with ports := [producerRequest (feedCommand 0)] }
    decodeProducer (feedCommand 0) = .feed 0 ∧
      (h.ports = producerRequest (feedCommand 0) :: [] ∧ h.dec.stage = .seekingHeader ∧ h.dec.hdrFill = 11) ∧
      (decodeHeader h.magic (headerWord (h.takeByte 0).dec.hdrBuf) = .hdr 3 7) ∧
      (midFrame.ports = producerRequest (feedCommand 0) :: [] ∧ midFrame.dec.stage = .readingEvents ∧
        midFrame.dec.evtFill = 7) ∧
      (decodeEvent false (eventWord (midFrame.takeByte 0).dec.evtBuf) = .evtWrite 2 3 0 10) := by decide

/-- The three orders, over P5's pair. -/
theorem wit_SimultaneousPairRunsInEitherOrder :
    let r : PortRequest := { rst := false, producer := some 0x105050000000A, consumer := some 10 }
    ({ reset0 with arb := .producerFirst, ports := [r] } : State).arb = .producerFirst ∧
      ({ reset0 with arb := .consumerFirst, ports := [r] } : State).arb = .consumerFirst ∧
      ({ reset0 with ports := [r] } : State).arb = .any ∧
      ({ reset0 with ports := [r] } : State).ports =
        { rst := false, producer := some 0x105050000000A, consumer := some 10 } :: [] := by decide

/-! Encoding -/

/-- One instruction of each of the five formats, SLIDE and EVT_UNSUP at the values that make them well-formed. -/
theorem wit_DecodeOfEncodeIsTheInstruction :
    let m := Config.magicT
    ((Instr.slide 0 1 2).wellFormed m = true ∧ (encode m (.slide 0 1 2)).isSome = true) ∧
      ((Instr.evtUnsup 255 1 2 3 4).wellFormed m = true ∧ (encode m (.evtUnsup 255 1 2 3 4)).isSome = true) ∧
      ((Instr.evtSkip 0 1 2 3 4).wellFormed m = true ∧ (encode m (.evtSkip 0 1 2 3 4)).isSome = true) ∧
      ((Instr.enq 1 2 3).wellFormed m = true ∧ (encode m (.enq 1 2 3)).isSome = true) ∧
      ((Instr.apply 3).wellFormed m = true ∧ (encode m (.apply 3)).isSome = true) ∧
      ((Instr.reset).wellFormed m = true ∧ (encode m .reset).isSome = true) := by decide

theorem wit_WireBytesDecodeAsTheWord :
    (List.replicate 11 (0 : Byte)).length ≠ 12 ∧ (List.replicate 9 (0 : Byte)).length ≠ 8 := by decide

end Sys2Proof.Tests
end

section
/-! SUPPORT. The decoder on one byte: FEED accumulates the byte in the buffer of its stage, and a full buffer runs the
row of the opcode table the wire decoder reads from it (spec/40_decoder.md R101, R105). -/

namespace Sys2Proof.Machine

/-! ## FEED, and the row a full buffer is -/

@[simp] theorem exec_feed (b : Byte) (s : State) : exec (.feed b) s = execFeed b s := rfl

/-- R102, R103: the window is evaluated as the row the wire decoder reads from it. -/
theorem evaluateWindow_eq_exec_decodeHeader (s : State) :
    evaluateWindow s = exec (decodeHeader s.magic (headerWord s.dec.hdrBuf)) s := by
  unfold evaluateWindow decodeHeader
  cases classifyHeader s.magic (headerWord s.dec.hdrBuf) with
  | accepted eventCount frameNumber => rfl
  | mismatch word eventCount frameNumber => rfl

/-- R106: the event is consumed as the row the wire decoder reads from it. -/
theorem consumeEvent_eq_exec_decodeEvent (s : State) :
    consumeEvent s = exec (decodeEvent s.dec.skippingFrame (eventWord s.dec.evtBuf)) s := by
  unfold consumeEvent decodeEvent
  cases classifyEvent s.dec.skippingFrame (eventWord s.dec.evtBuf) with
  | write address value pad delay => rfl
  | unsupported chipId address value pad delay => rfl
  | skipped chipId address value pad delay => rfl

/-! ## A byte taken -/

/-- Settles O7: the witness is the state with the byte taken; below index 11 FEED stops there, at index 11 the window
is full and is evaluated. -/
theorem feedAccumulatesHeaderBytes : Obligations.FeedAccumulatesHeaderBytes := by
  intro b s hs hle
  refine ⟨{ s with dec := s.dec.takeHeaderByte b }, Decoder.takeHeaderByte_fill hle b, s.dec.takeHeaderByte_buf b, rfl,
    fun hlt => ?_, fun h11 => ?_⟩
  · have hf : s.dec.hdrFill ≠ 11 := fun h => absurd hlt (by simp [h])
    exact ⟨execFeed_header_partial hs hf b, absorbedByFeed_header_partial hs hf b⟩
  · have hf : s.dec.hdrFill = 11 := BitVec.eq_of_toNat_eq h11
    rw [exec_feed, execFeed_header_full hs hf, evaluateWindow_eq_exec_decodeHeader]

/-- Settles O8: the witness is the state with the byte taken; below index 7 FEED stops there, at index 7 the event is
complete and is consumed, under the flag the byte left alone. -/
theorem feedAccumulatesEventBytes : Obligations.FeedAccumulatesEventBytes := by
  intro b s hs hle
  refine ⟨{ s with dec := s.dec.takeEventByte b }, Decoder.takeEventByte_fill hle b, s.dec.takeEventByte_buf b, rfl,
    fun hlt => ?_, fun h7 => ?_⟩
  · have hf : s.dec.evtFill ≠ 7 := fun h => absurd hlt (by simp [h])
    exact ⟨execFeed_event_partial hs hf b, absorbedByFeed_event_partial hs hf b⟩
  · have hf : s.dec.evtFill = 7 := BitVec.eq_of_toNat_eq h7
    rw [exec_feed, execFeed_event_full hs hf, consumeEvent_eq_exec_decodeEvent]
    rfl

end Sys2Proof.Machine
end

section
/-! SUPPORT. PUSH as an instruction, and a run of pushes with no APPLY in between: the queue holds the first 255 of what
was live and what was pushed (spec/41_queue_scheduler.md R130, R131). -/

namespace Sys2Proof.Machine

/-! ## One PUSH -/

@[simp] theorem exec_push (ev : RegisterWriteEvent) (s : State) : exec (.push ev) s = .next (s.push ev) := rfl

@[simp] theorem absorbedBy_push (ev : RegisterWriteEvent) (s : State) :
    absorbedBy (.push ev) s = absorbedByPush s.queue := rfl

theorem absorbedByPush_of_full {q : Queue} (h : q.isFull = true) : absorbedByPush q = [.queueFull] := if_pos h

theorem absorbedByPush_of_not_full {q : Queue} (h : q.isFull = false) : absorbedByPush q = [] := by
  simp [absorbedByPush, h]

/-- R131: on a full queue PUSH leaves the whole machine as it was. -/
theorem State.push_of_full {s : State} (h : s.queue.isFull = true) (ev : RegisterWriteEvent) : s.push ev = s := by
  rw [State.push, Queue.push_of_full h]

/-- Settles O23: the witness is the state after PUSH, by whether the queue is full. -/
theorem pushWritesOneSlotOrNothing : Obligations.PushWritesOneSlotOrNothing := by
  intro ev s hwf
  refine ⟨s.push ev, exec_push ev s, rfl, fun hfull => ?_, fun hroom => ?_⟩
  · have hf : s.queue.isFull = true := Queue.isFull_eq_true.2 hfull
    exact ⟨State.push_of_full hf ev, absorbedByPush_of_full hf⟩
  · have hf : s.queue.isFull = false := Bool.eq_false_iff.2 (mt Queue.isFull_eq_true.1 hroom)
    rw [State.push_queue, Queue.push_of_not_full hf]
    exact ⟨absorbedByPush_of_not_full hf, rfl, rfl, fun i => Memory.read_write hwf s.queue.wr i ev, rfl, rfl⟩

/-! ## A run of pushes -/

/-- A run of pushes is a run of `Queue.push`; nothing outside the queue changes. -/
theorem execAll_push (events : List RegisterWriteEvent) (s : State) :
    execAll (events.map .push) s = .next { s with queue := events.foldl Queue.push s.queue } := by
  induction events generalizing s with
  | nil => rfl
  | cons ev events ih => exact ih (s.push ev)

/-- The tail of the queue is where events are lost: pushes leave live the first 255 of the events live before and the
events pushed, in order. -/
theorem Queue.live_foldl_push {q : Queue} (hq : q.Inv) (events : List RegisterWriteEvent) :
    (events.foldl Queue.push q).live = (q.live ++ events).take 255 := by
  induction events generalizing q with
  | nil =>
    have hlen : q.live.length ≤ 255 := by rw [length_live]; exact Nat.le_of_lt_succ q.liveCount_lt
    rw [List.append_nil, List.take_of_length_le hlen, List.foldl_nil]
  | cons ev events ih =>
    rw [List.foldl_cons, ih (push_keeps_inv hq ev)]
    cases hf : q.isFull with
    | true =>
      have hlen : q.live.length = 255 := by rw [length_live]; exact isFull_iff_liveCount.1 hf
      rw [live_push_of_full hf, List.take_left' hlen, List.take_left' hlen]
    | false => rw [live_push hq hf, List.append_assoc, List.singleton_append]

/-- Settles O24: the full test is the count of live events; a run of pushes keeps the first 255 of what was live, here
nothing, and what is pushed. -/
theorem fullQueueDropsSilently : Obligations.FullQueueDropsSilently := by
  refine ⟨fun ev s hcount => ?_, fun s => ?_, fun events s hq he => ?_⟩
  · have hf : s.queue.isFull = true := Queue.isFull_iff_liveCount.2 hcount
    rw [exec_push, State.push_of_full hf]
    exact ⟨rfl, absorbedByPush_of_full hf⟩
  · exact Queue.isFull_eq_true.symm.trans Queue.isFull_iff_liveCount
  · have hnil : s.queue.live = [] := Queue.live_eq_nil.2 (hq.emptyIff.1 he)
    refine ⟨_, execAll_push events s, ?_, rfl⟩
    rw [Queue.live_foldl_push hq, hnil, List.nil_append]

end Sys2Proof.Machine
end

section
/-! SUPPORT. What an instruction can do, each said once: FEED by its seven cases with the event it passes to PUSH,
the effect of any instruction on the queue and on APPLY's record, and runs of operations. -/

namespace Sys2Proof.Machine

@[simp] theorem exec_apply (n : Word) (s : State) : exec (.apply n) s = .next (s.applyDue n) := rfl

/-! ## FEED -/

/-- What the end of an event leaves of the decoder (R106, R110): the event counted and taken out of the buffer, or, at
the declared count, the frame's end. -/
def Decoder.eventEnd (d : Decoder) (skipping : Bool) : Decoder :=
  if d.expectedEvents.toNat ≤ (d.eventsRead + 1).toNat then Decoder.cleared
  else
    { d with
      evtBuf := Decoder.cleared.evtBuf, evtFill := 0, eventsRead := d.eventsRead + 1, skippingFrame := skipping }

theorem Decoder.eventEnd_of_last {d : Decoder} (h : d.expectedEvents.toNat ≤ (d.eventsRead + 1).toNat)
    (skipping : Bool) : d.eventEnd skipping = Decoder.cleared := if_pos h

theorem Decoder.eventEnd_of_more {d : Decoder} (h : (d.eventsRead + 1).toNat < d.expectedEvents.toNat)
    (skipping : Bool) :
    d.eventEnd skipping =
      { d with
        evtBuf := Decoder.cleared.evtBuf, evtFill := 0, eventsRead := d.eventsRead + 1,
        skippingFrame := skipping } := if_neg (Nat.not_le.2 h)

/-- The first four bytes of the header buffer as a word: what is compared with the magic word (R102). -/
def Decoder.firstWord (d : Decoder) : Word := le32 d.hdrBuf[0] d.hdrBuf[1] d.hdrBuf[2] d.hdrBuf[3]

/-- FEED by cases: the state it leaves, and the events it passes to PUSH. -/
inductive FeedStep (b : Byte) (s : State) : State → List RegisterWriteEvent → Prop where
  /-- The window is not complete yet (R101). -/
  | headerByte (hs : s.dec.stage = .seekingHeader) (hf : s.dec.hdrFill ≠ 11) :
    FeedStep b s { s with dec := s.dec.takeHeaderByte b } []
  /-- The window begins with the magic word (R102). -/
  | accept (hs : s.dec.stage = .seekingHeader) (hf : s.dec.hdrFill = 11) (hm : s.dec.firstWord = s.magic) :
    FeedStep b s
      { s with
        dec := s.dec.accept (le32 s.dec.hdrBuf[4] s.dec.hdrBuf[5] s.dec.hdrBuf[6] s.dec.hdrBuf[7])
          (le32 s.dec.hdrBuf[8] s.dec.hdrBuf[9] s.dec.hdrBuf[10] b)
        stats := { s.stats with framesDecoded := s.stats.framesDecoded + 1 } } []
  /-- The window begins with another word (R103). -/
  | slide (hs : s.dec.stage = .seekingHeader) (hf : s.dec.hdrFill = 11) (hm : s.dec.firstWord ≠ s.magic) :
    FeedStep b s { s with dec := (s.dec.takeHeaderByte b).slide } []
  /-- The event is not complete yet (R105). -/
  | eventByte (hs : s.dec.stage = .readingEvents) (hf : s.dec.evtFill ≠ 7) :
    FeedStep b s { s with dec := s.dec.takeEventByte b } []
  /-- An event of a skipping frame (R109). -/
  | skip (hs : s.dec.stage = .readingEvents) (hf : s.dec.evtFill = 7) (hk : s.dec.skippingFrame = true) :
    FeedStep b s { s with dec := s.dec.eventEnd true } []
  /-- An event of the supported chip (R108). -/
  | write (hs : s.dec.stage = .readingEvents) (hf : s.dec.evtFill = 7) (hk : s.dec.skippingFrame = false)
      (hc : s.dec.evtBuf[0] = 0) (ev : RegisterWriteEvent)
      (hev : ev = eventOf s.dec.evtBuf[1] s.dec.evtBuf[2]
        (le32 s.dec.evtBuf[4] s.dec.evtBuf[5] s.dec.evtBuf[6] b)) :
    FeedStep b s
      { s with
        dec := s.dec.eventEnd false
        stats := { s.stats with writesForwarded := s.stats.writesForwarded + 1 }
        queue := s.queue.push ev } [ev]
  /-- An event of another chip (R107). -/
  | unsupported (hs : s.dec.stage = .readingEvents) (hf : s.dec.evtFill = 7) (hk : s.dec.skippingFrame = false)
      (hc : s.dec.evtBuf[0] ≠ 0) :
    FeedStep b s
      { s with
        dec := s.dec.eventEnd true
        stats := { s.stats with unsupportedChip := s.stats.unsupportedChip + 1 } } []

/-- FEED is a function: one case applies, in every state. -/
theorem FeedStep.total (b : Byte) (s : State) : ∃ t evs, FeedStep b s t evs := by
  cases hs : s.dec.stage with
  | seekingHeader =>
    by_cases hf : s.dec.hdrFill = 11
    · by_cases hm : s.dec.firstWord = s.magic
      · exact ⟨_, _, .accept hs hf hm⟩
      · exact ⟨_, _, .slide hs hf hm⟩
    · exact ⟨_, _, .headerByte hs hf⟩
  | readingEvents =>
    by_cases hf : s.dec.evtFill = 7
    · cases hk : s.dec.skippingFrame with
      | true => exact ⟨_, _, .skip hs hf hk⟩
      | false =>
        by_cases hc : s.dec.evtBuf[0] = 0
        · exact ⟨_, _, .write hs hf hk hc _ rfl⟩
        · exact ⟨_, _, .unsupported hs hf hk hc⟩
    · exact ⟨_, _, .eventByte hs hf⟩

/-- The cases are what `exec` does. -/
theorem FeedStep.exec {b : Byte} {s t : State} {evs : List RegisterWriteEvent} (h : FeedStep b s t evs) :
    exec (.feed b) s = .next t := by
  rw [exec_feed]
  cases h with
  | headerByte hs hf => exact execFeed_header_partial hs hf b
  | accept hs hf hm =>
    rw [execFeed_header_full hs hf, evaluateWindow_eq]
    simp only [Decoder.takeHeaderByte_old hf, Decoder.takeHeaderByte_new hf, Nat.reduceLT]
    exact congrArg Host.Outcome.next (if_pos hm)
  | slide hs hf hm =>
    rw [execFeed_header_full hs hf, evaluateWindow_eq]
    simp only [Decoder.takeHeaderByte_old hf, Decoder.takeHeaderByte_new hf, Nat.reduceLT]
    exact congrArg Host.Outcome.next (if_neg hm)
  | eventByte hs hf => exact execFeed_event_partial hs hf b
  | skip hs hf hk => rw [execFeed_event_full_eq hs hf, if_pos hk]; rfl
  | write hs hf hk hc ev hev => rw [execFeed_event_full_eq hs hf, if_neg (by simp [hk]), if_pos hc, hev]; rfl
  | unsupported hs hf hk hc => rw [execFeed_event_full_eq hs hf, if_neg (by simp [hk]), if_neg hc]; rfl

/-- The cases are what `pushedBy` says. -/
theorem FeedStep.pushedBy {b : Byte} {s t : State} {evs : List RegisterWriteEvent} (h : FeedStep b s t evs) :
    pushedBy (.feed b) s = evs := by
  change pushedByFeed b s.dec = evs
  cases h with
  | headerByte hs hf => exact pushedByFeed_seeking hs b
  | accept hs hf hm => exact pushedByFeed_seeking hs b
  | slide hs hf hm => exact pushedByFeed_seeking hs b
  | eventByte hs hf => exact pushedByFeed_event_partial hf b
  | skip hs hf hk => rw [pushedByFeed_event_full hs hf, if_neg (by simp [hk])]
  | write hs hf hk hc ev hev => rw [pushedByFeed_event_full hs hf, if_pos ⟨hk, hc⟩, hev]
  | unsupported hs hf hk hc => rw [pushedByFeed_event_full hs hf, if_neg fun h => hc h.2]

/-- What a FEED answers is one of the cases. -/
theorem FeedStep.of_exec {b : Byte} {s t : State} (h : Machine.exec (.feed b) s = .next t) :
    ∃ evs, FeedStep b s t evs := by
  obtain ⟨u, evs, hu⟩ := FeedStep.total b s
  rw [hu.exec] at h
  cases h
  exact ⟨evs, hu⟩

/-- FEED's effect on the queue is that of the PUSHes it makes. -/
theorem FeedStep.queue {b : Byte} {s t : State} {evs : List RegisterWriteEvent} (h : FeedStep b s t evs) :
    t.queue = evs.foldl Queue.push s.queue := by
  cases h <;> rfl

/-- FEED touches nothing outside the two groups. -/
theorem FeedStep.frame {b : Byte} {s t : State} {evs : List RegisterWriteEvent} (h : FeedStep b s t evs) :
    t = { s with dec := t.dec, stats := t.stats, queue := t.queue } := by
  cases h <;> rfl

/-! ## Every instruction -/

/-- Every instruction answers a next state. -/
theorem exec_total (i : Instr) (s : State) : ∃ t, exec i s = .next t := by
  cases i with
  | feed b =>
    obtain ⟨t, evs, h⟩ := FeedStep.total b s
    exact ⟨t, h.exec⟩
  | _ => exact ⟨_, rfl⟩

/-- What an instruction does to the queue and to APPLY's record: PUSHes, or one of the three operations that take
events out of the queue. -/
inductive QueueStep (i : Instr) (s t : State) : Prop where
  | pushes (queue : t.queue = (pushedBy i s).foldl Queue.push s.queue) (applyLog : t.applyLog = s.applyLog)
  | applies (n : Word) (instr : i = .apply n) (queue : t.queue = (s.queue.applyDue n).1)
      (applyLog : t.applyLog = s.applyLog ++ [(s.queue.applyDue n).2])
  | clears (instr : i = .qclear) (queue : t.queue = s.queue.clear) (applyLog : t.applyLog = s.applyLog)
  | resets (instr : i = .reset) (queue : t.queue = Queue.initial) (applyLog : t.applyLog = s.applyLog)

theorem QueueStep.of_exec {i : Instr} {s t : State} (h : exec i s = .next t) : QueueStep i s t := by
  cases i with
  | feed b =>
    obtain ⟨evs, hfeed⟩ := FeedStep.of_exec h
    exact .pushes (by rw [hfeed.pushedBy, hfeed.queue]) (by rw [hfeed.frame])
  | apply n => cases h; exact .applies n rfl rfl rfl
  | qclear => cases h; exact .clears rfl rfl rfl
  | reset => cases h; exact .resets rfl rfl rfl
  | _ => cases h; exact .pushes rfl rfl

theorem Queue.foldl_push_keeps_inv {q : Queue} (hq : q.Inv) (evs : List RegisterWriteEvent) :
    (evs.foldl Queue.push q).Inv := by
  induction evs generalizing q with
  | nil => exact hq
  | cons ev evs ih => exact ih (Queue.push_keeps_inv hq ev)

/-- Every instruction keeps the queue's invariant. -/
theorem exec_keeps_queueInv {i : Instr} {s t : State} (hq : s.queue.Inv) (h : exec i s = .next t) : t.queue.Inv := by
  cases QueueStep.of_exec h with
  | pushes queue => rw [queue]; exact Queue.foldl_push_keeps_inv hq _
  | applies n instr queue => rw [queue]; exact Queue.applyDue_keeps_inv hq n
  | clears instr queue => rw [queue]; exact Queue.clear_keeps_inv hq
  | resets instr queue => rw [queue]; exact Queue.initial_inv

/-- No instruction touches what is the environment's, and none but APPLY the record of returned lists. -/
theorem exec_frame {i : Instr} {s t : State} (h : exec i s = .next t) :
    t = { s with dec := t.dec, stats := t.stats, queue := t.queue, applyLog := t.applyLog } := by
  cases i with
  | feed b =>
    obtain ⟨evs, hfeed⟩ := FeedStep.of_exec h
    rw [hfeed.frame]
  | _ => cases h; rfl

theorem exec_applyLog {i : Instr} {s t : State} (h : exec i s = .next t) (hi : ∀ n, i ≠ .apply n) :
    t.applyLog = s.applyLog := by
  cases QueueStep.of_exec h with
  | pushes queue applyLog => exact applyLog
  | applies n instr => exact absurd instr (hi n)
  | clears instr queue applyLog => exact applyLog
  | resets instr queue applyLog => exact applyLog

/-! ## Runs of operations -/

theorem execAll_nil (s : State) : execAll [] s = .next s := rfl

theorem execAll_cons {i : Instr} {s t : State} (h : exec i s = .next t) (rest : List Instr) :
    execAll (i :: rest) s = execAll rest t := by
  rw [execAll, h]
  rfl

theorem execAll_append {xs : List Instr} {s t : State} (h : execAll xs s = .next t) (ys : List Instr) :
    execAll (xs ++ ys) s = execAll ys t := by
  induction xs generalizing s with
  | nil => cases h; rfl
  | cons x xs ih =>
    obtain ⟨u, hu⟩ := exec_total x s
    rw [execAll_cons hu] at h
    rw [List.cons_append, execAll_cons hu, ih h]

theorem execAll_total (ops : List Instr) (s : State) : ∃ t, execAll ops s = .next t := by
  induction ops generalizing s with
  | nil => exact ⟨s, rfl⟩
  | cons i ops ih =>
    obtain ⟨u, hu⟩ := exec_total i s
    rw [execAll_cons hu]
    exact ih u

theorem pushedByAll_cons {i : Instr} {s t : State} (h : exec i s = .next t) (rest : List Instr) :
    pushedByAll (i :: rest) s = pushedBy i s ++ pushedByAll rest t := by
  simp only [pushedByAll, h]

theorem decodedByAll_cons {i : Instr} {s t : State} (h : exec i s = .next t) (rest : List Instr) :
    decodedByAll (i :: rest) s = decodedBy i s ++ decodedByAll rest t := by
  simp only [decodedByAll, h]

/-- FEEDS, byte by byte. -/
theorem FeedStep.feeds_cons {b : Byte} {s t : State} {evs : List RegisterWriteEvent} (h : FeedStep b s t evs)
    (bytes : List Byte) : feeds (b :: bytes) s = feeds bytes t := execAll_cons h.exec _

theorem FeedStep.pushedByAll_cons {b : Byte} {s t : State} {evs : List RegisterWriteEvent} (h : FeedStep b s t evs)
    (bytes : List Byte) :
    pushedByAll ((b :: bytes).map .feed) s = evs ++ pushedByAll (bytes.map .feed) t := by
  rw [List.map_cons, Machine.pushedByAll_cons h.exec, h.pushedBy]

theorem feeds_append {xs : List Byte} {s t : State} (h : feeds xs s = .next t) (ys : List Byte) :
    feeds (xs ++ ys) s = feeds ys t := by
  rw [feeds, List.map_append, execAll_append h]
  rfl

end Sys2Proof.Machine
end

section
/-! SUPPORT. Order and loss over runs of operations: what the engine sees, and what is still live, against what was live
and what was pushed (spec/41_queue_scheduler.md R143, spec/20_memory.md R66). -/

namespace Sys2Proof.Machine

theorem Queue.length_live_le (q : Queue) : q.live.length ≤ 255 := by
  rw [length_live]
  exact Nat.le_of_lt_succ q.liveCount_lt

theorem Queue.foldl_push_rd (q : Queue) (evs : List RegisterWriteEvent) : (evs.foldl push q).rd = q.rd := by
  induction evs generalizing q with
  | nil => rfl
  | cons ev evs ih => rw [List.foldl_cons, ih, push_rd]

theorem Queue.live_prefix_foldl_push {q : Queue} (hq : q.Inv) (evs : List RegisterWriteEvent) :
    q.live <+: (evs.foldl push q).live := by
  rw [live_foldl_push hq, List.take_append, List.take_of_length_le q.length_live_le]
  exact List.prefix_append _ _

/-! ## One operation -/

/-- One operation: the writes it shows, then what it leaves live, are a sublist of what was live and what it pushes. -/
theorem exec_fifo {i : Instr} {s t : State} (hq : s.queue.Inv) (h : exec i s = .next t) :
    ∃ outs, t.applyLog = s.applyLog ++ outs ∧
      (outs.flatten ++ t.queue.live.map writeOf).Sublist ((s.queue.live ++ pushedBy i s).map writeOf) := by
  cases QueueStep.of_exec h with
  | pushes queue applyLog =>
    refine ⟨[], by simpa using applyLog, ?_⟩
    rw [queue, Queue.live_foldl_push hq]
    exact (List.take_sublist ..).map _
  | applies n instr queue applyLog =>
    obtain ⟨m, -, hout, hlive⟩ := Queue.applyDue_live hq n
    refine ⟨_, applyLog, ?_⟩
    rw [queue, hlive, hout, List.flatten_singleton, ← List.map_append, List.take_append_drop]
    exact (List.sublist_append_left ..).map _
  | clears instr queue applyLog =>
    refine ⟨[], by simpa using applyLog, ?_⟩
    rw [queue, Queue.live_clear]
    exact List.nil_sublist _
  | resets instr queue applyLog =>
    refine ⟨[], by simpa using applyLog, ?_⟩
    rw [queue, Queue.live_eq_nil.2 rfl]
    exact List.nil_sublist _

/-- One operation that clears nothing, and whose push fits, loses nothing. -/
theorem exec_lossless {i : Instr} {s t : State} (hq : s.queue.Inv) (h : exec i s = .next t) (hc : i ≠ .qclear)
    (hr : i ≠ .reset) (hfit : s.queue.live.length + (pushedBy i s).length ≤ 255) :
    ∃ outs, t.applyLog = s.applyLog ++ outs ∧
      outs.flatten ++ t.queue.live.map writeOf = (s.queue.live ++ pushedBy i s).map writeOf := by
  cases QueueStep.of_exec h with
  | pushes queue applyLog =>
    refine ⟨[], by simpa using applyLog, ?_⟩
    rw [queue, Queue.live_foldl_push hq, List.take_of_length_le (by simpa using hfit)]
    rfl
  | applies n instr queue applyLog =>
    obtain ⟨m, -, hout, hlive⟩ := Queue.applyDue_live hq n
    refine ⟨_, applyLog, ?_⟩
    rw [queue, hlive, hout, List.flatten_singleton, ← List.map_append, List.take_append_drop, instr]
    exact congrArg _ (List.append_nil _).symm
  | clears instr => exact absurd instr hc
  | resets instr => exact absurd instr hr

/-! ## Any sequence of operations -/

/-- Settles O41, by induction on the operations: each passes on a sublist of what it finds live and pushes. -/
theorem engineSeesPushesInOrder : Obligations.EngineSeesPushesInOrder := by
  intro ops
  induction ops with
  | nil => exact fun s hq => ⟨s, [], rfl, by simp, hq, by simp [pushedByAll]⟩
  | cons i ops ih =>
    intro s hq
    obtain ⟨u, hu⟩ := exec_total i s
    obtain ⟨outs, hlog, hsub⟩ := exec_fifo hq hu
    obtain ⟨t, outs', hrun, hlog', hinv, hsub'⟩ := ih u (exec_keeps_queueInv hq hu)
    refine ⟨t, outs ++ outs', by rw [execAll_cons hu, hrun], by rw [hlog', hlog, List.append_assoc], hinv, ?_⟩
    have hrest := (hsub'.append_left outs.flatten).trans
      (by simpa using hsub.append_right ((pushedByAll ops u).map writeOf))
    simpa [pushedByAll_cons hu] using hrest

/-- Settles O42, by the same induction: each operation passes on all it finds live and pushes, so what is live after it
and what is pushed later still fit. -/
theorem nothingIsLostWithoutAClear : Obligations.NothingIsLostWithoutAClear := by
  intro ops
  induction ops with
  | nil => exact fun s _ _ _ _ => ⟨s, [], rfl, by simp, by simp [pushedByAll]⟩
  | cons i ops ih =>
    intro s hq hc hr hfit
    obtain ⟨hci, hc⟩ := not_or.1 (mt List.mem_cons.2 hc)
    obtain ⟨hri, hr⟩ := not_or.1 (mt List.mem_cons.2 hr)
    obtain ⟨u, hu⟩ := exec_total i s
    rw [pushedByAll_cons hu, List.length_append] at hfit
    obtain ⟨outs, hlog, heq⟩ := exec_lossless hq hu (Ne.symm hci) (Ne.symm hri) (by omega)
    have hlen := congrArg List.length heq
    simp only [List.length_append, List.length_map] at hlen
    obtain ⟨t, outs', hrun, hlog', heq'⟩ := ih u (exec_keeps_queueInv hq hu) hc hr (by omega)
    refine ⟨t, outs ++ outs', by rw [execAll_cons hu, hrun], by rw [hlog', hlog, List.append_assoc], ?_⟩
    rw [pushedByAll_cons hu, List.flatten_append, List.append_assoc, heq', List.map_append, ← List.append_assoc, heq,
      ← List.map_append, List.append_assoc]

/-! ## Bytes and pushes -/

/-- Settles O20, by induction on the bytes: a FEED only pushes, and a push keeps the read index and what is live. -/
theorem bytesNeverDisturbTheQueue : Obligations.BytesNeverDisturbTheQueue := by
  intro s t bytes
  induction bytes generalizing s with
  | nil =>
    intro _ h
    cases h
    exact ⟨rfl, List.prefix_rfl⟩
  | cons b bytes ih =>
    intro hq h
    obtain ⟨u, evs, hu⟩ := FeedStep.total b s
    rw [hu.feeds_cons] at h
    obtain ⟨hrd, hlive⟩ := ih u (exec_keeps_queueInv hq hu.exec) h
    rw [hu.queue] at hrd hlive
    refine ⟨hrd.trans (Queue.foldl_push_rd _ _), List.IsPrefix.trans ?_ hlive⟩
    exact Queue.live_prefix_foldl_push hq evs

end Sys2Proof.Machine
end

section
/-! SUPPORT. PUSH, APPLY and QCLEAR as instructions: one pass of APPLY's loop on the live events, the countdown over the
whole loop, and how a countdown is seeded (spec/41_queue_scheduler.md R130 to R142). -/

namespace Sys2Proof.Machine

/-! ## PUSH and ENQ -/

/-- Settles O25: fewer than 255 live events is not full, so the event is kept. -/
theorem pushAppendsToTheLiveEvents : Obligations.PushAppendsToTheLiveEvents := by
  intro ev s hq hroom
  have hf : s.queue.isFull = false := Bool.eq_false_iff.2 fun h => by
    have := Queue.isFull_iff_liveCount.1 h
    omega
  exact ⟨s.push ev, rfl, Queue.live_push hq hf ev⟩

/-- R75: the truncation to five bits is the remainder modulo 32. -/
theorem eventOf_register_toNat (address value : Byte) (delay : Word) :
    (eventOf address value delay).register.toNat = address.toNat % 32 := by
  rw [eventOf, registerOf, toNat_extract_eq, Nat.pow_zero, Nat.div_one]
  rfl

/-- Settles O26: ENQ is the PUSH of `eventOf`. -/
theorem enqueueIsPush : Obligations.EnqueueIsPush := fun a v d s =>
  ⟨eventOf a v d, s.push (eventOf a v d), eventOf_register_toNat a v d, rfl, rfl, rfl, rfl, rfl, rfl⟩

theorem Queue.not_full_of_empty {q : Queue} (hq : q.Inv) (he : q.empty = true) : q.isFull = false := by
  refine Bool.eq_false_iff.2 fun h => ?_
  rw [isFull_iff_liveCount, liveCount_eq_zero.2 (hq.emptyIff.1 he)] at h
  cases h

theorem Queue.push_empty (q : Queue) (ev : RegisterWriteEvent) (h : q.empty = false) : (q.push ev).empty = false := by
  cases hf : q.isFull
  · rw [push_of_not_full hf]
  · rwa [push_of_full hf]

/-- R133: behind a live event, and on a full queue, the countdown stays. -/
theorem Queue.push_cnt (q : Queue) (ev : RegisterWriteEvent) (h : q.empty = false) : (q.push ev).cnt = q.cnt := by
  cases hf : q.isFull
  · rw [push_of_not_full hf]
    simp [h]
  · rw [push_of_full hf]

/-! ## The due test -/

/-- R135: due is not above 0, as signed. -/
theorem sle_zero_eq_true {c : Word} : c.sle 0 = true ↔ c.toInt ≤ 0 := BitVec.sle_iff_toInt_le

theorem sle_zero_eq_false {c : Word} : c.sle 0 = false ↔ 0 < c.toInt := by
  rw [← Bool.not_eq_true, sle_zero_eq_true, Int.not_le]

/-! ## One pass of the loop, on the live events -/

namespace Queue

/-- The head of a non-empty queue, and whether it is the last. -/
theorem LoopInv.live_cases {q : Queue} (h : LoopInv q) (he : q.empty = false) :
    (nextIndex q.rd = q.wr ∧ q.live = [q.buf.read q.rd]) ∨
      (nextIndex q.rd ≠ q.wr ∧
        ∃ rest, q.live = q.buf.read q.rd :: q.buf.read (nextIndex q.rd) :: rest ∧
          q.pop.live = q.buf.read (nextIndex q.rd) :: rest) := by
  have hlive := live_pop (h.rd_ne_wr he)
  by_cases hl : nextIndex q.rd = q.wr
  · have hnil : q.pop.live = [] := live_eq_nil.2 (by rw [pop_rd, pop_wr, hl])
    exact .inl ⟨hl, by rw [hlive, hnil]⟩
  · have hpop := live_pop (q := q.pop) (by rwa [pop_rd, pop_wr])
    rw [pop_buf, pop_rd] at hpop
    exact .inr ⟨hl, q.pop.pop.live, by rw [hlive, hpop], hpop⟩

/-- What a pass does, as the live events show it: the last one leaves the queue empty, else the new head's delay is
carried (R136, R137). -/
inductive PopStep (q : Queue) : Prop where
  | last (ev : RegisterWriteEvent) (live : q.live = [ev]) (write : q.headWrite = writeOf ev)
      (popLive : q.pop.live = []) (popEmpty : q.pop.empty = true)
  | more (ev next : RegisterWriteEvent) (rest : List RegisterWriteEvent) (live : q.live = ev :: next :: rest)
      (write : q.headWrite = writeOf ev) (popLive : q.pop.live = next :: rest) (popEmpty : q.pop.empty = false)
      (popCnt : q.pop.cnt = q.cnt + next.delayCycles)

theorem LoopInv.popStep {q : Queue} (h : LoopInv q) (he : q.empty = false) : PopStep q := by
  obtain ⟨hl, hlive⟩ | ⟨hl, rest, hlive, hpop⟩ := h.live_cases he
  · exact .last _ hlive rfl (live_eq_nil.2 (by rw [pop_rd, pop_wr, hl])) (by rw [pop_of_last hl])
  · exact .more _ _ rest hlive rfl hpop (by rw [pop_of_more hl]; exact he) (by rw [pop_of_more hl])

/-- Nothing is due in an empty queue. -/
theorem drain_of_empty {k : Nat} {q : Queue} (he : q.empty = true) : drain k q = (q, []) :=
  drain_of_not_due (by simp [headDue, he])

/-- R36 item 5, over the loop: what is left of the countdown is what it was and the delays of the new heads. -/
theorem drain_cnt {k : Nat} {q : Queue} (hq : LoopInv q) :
    ∃ m, (drain k q).1.live = q.live.drop m ∧
      ((drain k q).1.empty = false →
        (drain k q).1.cnt = ((q.live.drop 1).take m).foldl (fun c ev => c + ev.delayCycles) q.cnt) := by
  induction k generalizing q with
  | zero => exact ⟨0, rfl, fun _ => rfl⟩
  | succ k ih =>
    cases hdue : q.headDue with
    | false => rw [drain_of_not_due hdue]; exact ⟨0, rfl, fun _ => rfl⟩
    | true =>
      have he := not_empty_of_headDue hdue
      rw [drain_of_due hdue]
      cases hq.popStep he with
      | last ev live write popLive popEmpty =>
        refine ⟨1, ?_, fun h => ?_⟩
        · rw [drain_of_empty popEmpty, popLive, live]; rfl
        · rw [drain_of_empty popEmpty, popEmpty] at h; cases h
      | more ev next rest live write popLive popEmpty popCnt =>
        obtain ⟨m, hlive, hcnt⟩ := ih (hq.pop he)
        rw [popLive] at hlive hcnt
        rw [popCnt] at hcnt
        rw [live]
        exact ⟨m + 1, hlive, hcnt⟩

theorem settle_of_not_empty {q : Queue} (he : q.empty = false) : q.settle = q := by simp [settle, he]

theorem applyDue_cnt_of_empty (q : Queue) (n : Word) (he : (q.applyDue n).1.empty = true) :
    (q.applyDue n).1.cnt = 0 := by
  rw [applyDue_eq] at he ⊢
  rw [(settle_buf _).2.2.2] at he
  simp [settle, he]

theorem passesLeft_le_of_agree {q : Queue} (h : q.empty = true ↔ q.rd = q.wr) : q.passesLeft ≤ 255 := by
  cases he : q.empty with
  | true => rw [passesLeft_of_empty he]; omega
  | false =>
    have hne : q.liveCount ≠ 0 := fun h0 => by
      rw [liveCount_eq_zero, ← h, he] at h0
      cases h0
    have := q.liveCount_lt
    rw [passesLeft_of_not_empty he, if_neg hne]
    omega

end Queue

/-! ## APPLY as an instruction -/

/-- Settles O27: the three clauses are APPLY by its first pass. -/
theorem applyFollowsItsLoop : Obligations.ApplyFollowsItsLoop := by
  intro n s he
  refine ⟨fun h => ?_, fun h hl => ?_, fun h hl => ?_⟩
  · rw [exec_apply, State.applyDue, Queue.applyDue_of_not_due he (sle_zero_eq_false.2 h)]
  · rw [exec_apply, State.applyDue, Queue.applyDue_of_last he (sle_zero_eq_true.2 h) hl, hl]
  · let q : Queue :=
      { s.queue with
        rd := s.queue.rd + 1, cnt := s.queue.cnt - n + (s.queue.buf.read (s.queue.rd + 1)).delayCycles }
    refine ⟨(q.applyDue 0).2, { s with queue := (q.applyDue 0).1 }, rfl, ?_⟩
    rw [exec_apply, State.applyDue, Queue.applyDue_of_more he (sle_zero_eq_true.2 h) hl]
    rfl

/-- Settles O28: the loop ends only when nothing is due, and each pass takes one of at most 255 live events. -/
theorem applyLeavesNothingDue : Obligations.ApplyLeavesNothingDue := by
  intro n s
  refine ⟨s.applyDue n, (s.queue.applyDue n).2, rfl, rfl, ?_, fun hagree => ?_, fun he => ?_⟩
  · cases he : (s.queue.applyDue n).1.empty with
    | true => exact .inl ⟨he, Queue.applyDue_cnt_of_empty _ n he⟩
    | false =>
      have hdue := Queue.applyDue_not_due s.queue n
      rw [Queue.headDue, he, Bool.not_false, Bool.true_and, sle_zero_eq_false] at hdue
      exact .inr ⟨he, hdue⟩
  · exact (Queue.applyDue_length_le s.queue n).trans (Queue.passesLeft_le_of_agree hagree)
  · rw [State.applyDue, Queue.applyDue_of_empty he]

/-- Settles O29: the loop takes events from the head of the live ones. -/
theorem applyIsFifo : Obligations.ApplyIsFifo := by
  intro n s hq
  obtain ⟨m, hm, hout, hlive⟩ := Queue.applyDue_live hq n
  obtain ⟨hbuf, hwr⟩ := Queue.applyDue_frame s.queue n
  exact ⟨s.applyDue n, m, rfl, hm, by rw [State.applyDue_applyLog, hout], hlive, hbuf, hwr, rfl⟩

/-- Settles O30: a queue that is not empty after the loop is what the loop left. -/
theorem countdownAccountsForEveryDelay : Obligations.CountdownAccountsForEveryDelay := by
  intro n s hq
  obtain ⟨m, hlive, hcnt⟩ := Queue.drain_cnt (k := drainPasses) (hq.loopInv (elapse s.queue.cnt n))
  refine ⟨s.applyDue n, m, rfl, ?_, fun he => ?_⟩
  · rw [State.applyDue_queue, Queue.applyDue_eq, Queue.settle_live, hlive]
    rfl
  · rw [State.applyDue_queue, Queue.applyDue_eq] at he ⊢
    rw [(Queue.settle_buf _).2.2.2] at he
    rw [Queue.settle_of_not_empty he, hcnt he]
    rfl

/-! ## One live event -/

namespace Queue

/-- APPLY returns something exactly when the head is due after the decrement (R135). -/
theorem applyDue_ne_nil {q : Queue} (he : q.empty = false) (n : Word) :
    (q.applyDue n).2 ≠ [] ↔ (q.cnt - n).sle 0 = true := by
  cases h : (q.cnt - n).sle 0 with
  | false => rw [applyDue_of_not_due he h]; simp
  | true =>
    by_cases hl : nextIndex q.rd = q.wr
    · rw [applyDue_of_last he h hl]; simp
    · rw [applyDue_of_more he h hl]; simp

/-- APPLY on a single live event returns it or nothing. -/
theorem applyDue_of_single {q : Queue} (hq : q.Inv) {ev : RegisterWriteEvent} (hlive : q.live = [ev]) (n : Word) :
    (q.applyDue n).2 = if (q.cnt - n).sle 0 then [writeOf ev] else [] := by
  have he : q.empty = false := Bool.eq_false_iff.2 fun h => by
    rw [live_eq_nil.2 (hq.emptyIff.1 h)] at hlive
    cases hlive
  have hne := applyDue_ne_nil he n
  obtain ⟨m, hm, hout, -⟩ := applyDue_live hq n
  rw [hlive] at hm hout
  rw [hout] at hne ⊢
  obtain rfl | rfl : m = 0 ∨ m = 1 := by simpa using Nat.le_one_iff_eq_zero_or_eq_one.1 hm
  · rw [if_neg (mt hne.2 (by simp))]; rfl
  · rw [if_pos (hne.1 (by simp))]; rfl

end Queue

/-- R142 item 1: the signed test on a countdown with bit 31 set. -/
theorem sle_zero_sub_of_bit31 {c : Word} (hc : 2 ^ 31 ≤ c.toNat) (n : Word) :
    (c - n).sle 0 = true ↔ n.toNat ≤ c.toNat - 2 ^ 31 ∨ c.toNat ≤ n.toNat := by
  rw [sle_zero_eq_true, BitVec.toInt_eq_toNat_cond, BitVec.toNat_sub]
  have := c.isLt
  have := n.isLt
  split <;> omega

/-- The signed test on two numbers below 2^31. -/
theorem sle_zero_sub_of_lt {c n : Word} (hc : c.toNat < 2 ^ 31) (hn : n.toNat < 2 ^ 31) :
    (c - n).sle 0 = true ↔ c.toNat ≤ n.toNat := by
  rw [sle_zero_eq_true, BitVec.toInt_eq_toNat_cond, BitVec.toNat_sub]
  split <;> omega

/-- Settles O34: the event is the only live one, with its delay as the countdown. -/
theorem delayWithBit31IsNegative : Obligations.DelayWithBit31IsNegative := by
  intro ev n s hq he hbig
  have hf := Queue.not_full_of_empty hq he
  have hlive : (s.queue.push ev).live = [ev] := by
    rw [Queue.live_push hq hf, Queue.live_eq_nil.2 (hq.emptyIff.1 he), List.nil_append]
  have hcnt : (s.queue.push ev).cnt = ev.delayCycles := by rw [Queue.push_of_not_full hf, he]; rfl
  refine ⟨(s.push ev).applyDue n, rfl, ?_⟩
  rw [State.applyDue_applyLog, State.push_queue, State.push_applyLog,
    Queue.applyDue_of_single (Queue.push_keeps_inv hq ev) hlive, hcnt]
  simp only [sle_zero_sub_of_bit31 hbig]

/-- Settles O35: on an empty queue APPLY leaves nothing to charge; behind a live event PUSH leaves the countdown. -/
theorem idleTimeIsNotCharged : Obligations.IdleTimeIsNotCharged := by
  refine ⟨fun ev n s hq he => ?_, fun ev s he => ⟨s.push ev, rfl, Queue.push_empty _ ev he, Queue.push_cnt _ ev he⟩⟩
  have hq' := Queue.applyDue_keeps_inv hq n
  have he' : (s.queue.applyDue n).1.empty = true := by rw [Queue.applyDue_of_empty he]; exact he
  have hf := Queue.not_full_of_empty hq' he'
  refine ⟨(s.applyDue n).push ev, rfl, ?_, ?_, ?_⟩
  · rw [State.push_queue, State.applyDue_queue, Queue.push_of_not_full hf]
  · rw [State.push_queue, State.applyDue_queue, Queue.push_of_not_full hf, he']
    rfl
  · rw [State.push_queue, State.applyDue_queue, Queue.live_push hq' hf,
      Queue.live_eq_nil.2 (hq'.emptyIff.1 he'), List.nil_append]

/-- Settles O36: something is returned exactly when the head is due after the decrement. -/
theorem statusCountdownTellsTheCyclesToGo : Obligations.StatusCountdownTellsTheCyclesToGo := by
  intro n s _ he hpos hn
  have he : s.queue.empty = false := by
    cases h : s.queue.empty with
    | false => rfl
    | true => simp [State.status, h] at he
  have hcnt : s.queue.cnt.toNat < 2 ^ 31 := by
    have hpos : 0 < s.queue.cnt.toInt := hpos
    rw [BitVec.toInt_eq_toNat_cond] at hpos
    have := s.queue.cnt.isLt
    split at hpos <;> omega
  exact ⟨s.applyDue n, _, rfl, rfl, (Queue.applyDue_ne_nil he n).trans (sle_zero_sub_of_lt hcnt hn)⟩

/-! ## QCLEAR and the host's reset -/

/-- Settles O37: a cleared queue is empty, and APPLY on an empty queue returns nothing. -/
theorem clearDiscardsWhatIsPending : Obligations.ClearDiscardsWhatIsPending := by
  intro n s
  refine ⟨s.clearQueue, rfl, rfl, Queue.live_clear _, ?_⟩
  rw [exec_apply, State.applyDue, Queue.applyDue_of_empty (q := s.clearQueue.queue) rfl]
  rfl

/-- Settles O38: the two write different groups. -/
theorem hostResetKeepsStats : Obligations.HostResetKeepsStats := fun _ => ⟨rfl, rfl⟩

end Sys2Proof.Machine
end

section
/-! SUPPORT. The schedule in the integers (spec/41_queue_scheduler.md R141, R142): inside the no-wrap range APPLY's loop
follows the due points, so splitting the elapsed cycles does not matter (R139), and a constant operand quantises
(spec/42_host_and_renderer.md R168). -/

namespace Sys2Proof.Machine

/-! ## Due points -/

section
variable {due x : Nat} {evs : List RegisterWriteEvent}

@[simp] theorem dueTimes_nil (due : Nat) : dueTimes due [] = [] := rfl

@[simp] theorem dueTimes_single (due : Nat) (ev : RegisterWriteEvent) : dueTimes due [ev] = [due] := rfl

@[simp] theorem dueTimes_cons_cons (due : Nat) (ev next : RegisterWriteEvent) (rest : List RegisterWriteEvent) :
    dueTimes due (ev :: next :: rest) = due :: dueTimes (due + next.delayCycles.toNat) (next :: rest) := rfl

@[simp] theorem length_dueTimes (due : Nat) (evs : List RegisterWriteEvent) :
    (dueTimes due evs).length = evs.length := by
  induction due, evs using dueTimes.induct with
  | case1 due => rfl
  | case2 due ev => rfl
  | case3 due ev next rest ih => rw [dueTimes_cons_cons, List.length_cons, ih]; rfl

theorem head?_dueTimes (due : Nat) (h : evs ≠ []) : (dueTimes due evs).head? = some due := by
  match evs, h with
  | [_], _ => rfl
  | _ :: _ :: _, _ => rfl

theorem le_of_mem_dueTimes (h : x ∈ dueTimes due evs) : due ≤ x := by
  induction due, evs using dueTimes.induct with
  | case1 due => cases h
  | case2 due ev => exact (List.mem_singleton.1 h).ge
  | case3 due ev next rest ih =>
    obtain rfl | h := List.mem_cons.1 h
    · exact Nat.le_refl _
    · exact (Nat.le_add_right ..).trans (ih h)

theorem pairwise_dueTimes (due : Nat) (evs : List RegisterWriteEvent) : (dueTimes due evs).Pairwise (· ≤ ·) := by
  induction due, evs using dueTimes.induct with
  | case1 due => exact .nil
  | case2 due ev => exact List.pairwise_singleton ..
  | case3 due ev next rest ih =>
    exact List.pairwise_cons.2 ⟨fun x hx => (Nat.le_add_right ..).trans (le_of_mem_dueTimes hx), ih⟩

/-- The due points as seen `n` cycles later. -/
theorem dueTimes_sub {n : Nat} (h : n ≤ due) : dueTimes (due - n) evs = (dueTimes due evs).map (· - n) := by
  induction due, evs using dueTimes.induct with
  | case1 due => rfl
  | case2 due ev => rfl
  | case3 due ev next rest ih =>
    rw [dueTimes_cons_cons, dueTimes_cons_cons, List.map_cons, ← ih (h.trans (Nat.le_add_right ..)),
      Nat.sub_add_comm h]

/-- How many due points `n` cycles reach, by the first of them. -/
theorem countP_le_cons {n : Nat} {dues : List Nat} (h : x ≤ n) :
    (x :: dues).countP (· ≤ n) = dues.countP (· ≤ n) + 1 := by simp [h]

theorem countP_le_eq_zero {n : Nat} {dues : List Nat} (h : ∀ x ∈ dues, n < x) : dues.countP (· ≤ n) = 0 :=
  List.countP_eq_zero.2 fun x hx => by simpa using h x hx

end

/-! ## The loop on the schedule -/

/-- `r` is what the due points `dues` of the live events of `q` ask of `n` elapsed cycles: the events due by then are
returned, and the countdown left is that of the next due point. -/
structure MeetsSchedule (n : Word) (dues : List Nat) (q : Queue) (r : Queue × List EngineWrite) : Prop where
  out : r.2 = (q.live.take (dues.countP (· ≤ n.toNat))).map writeOf
  live : r.1.live = q.live.drop (dues.countP (· ≤ n.toNat))
  next : r.1.empty = false → ∃ due, n.toNat < due ∧ r.1.cnt = BitVec.ofNat 32 due - n ∧
    dueTimes due r.1.live = dues.drop (dues.countP (· ≤ n.toNat))

namespace Queue

theorem LoopInv.live_of_empty {q : Queue} (hq : LoopInv q) (he : q.empty = true) : q.live = [] :=
  live_eq_nil.2 (hq.emptyIff.1 he)

theorem LoopInv.live_ne_nil {q : Queue} (hq : LoopInv q) (he : q.empty = false) : q.live ≠ [] :=
  mt live_eq_nil.1 (hq.rd_ne_wr he)

/-- The head's due point is the first. -/
theorem LoopInv.due_mem {q : Queue} (hq : LoopInv q) (he : q.empty = false) (due : Nat) : due ∈ dueTimes due q.live :=
  List.mem_of_head? (head?_dueTimes due (hq.live_ne_nil he))

/-- The head of a non-empty queue is due by its due point. -/
theorem headDue_iff_due_le {q : Queue} {n : Word} {due : Nat} (he : q.empty = false) (hn : n.toNat < 2 ^ 31)
    (hdue : due < 2 ^ 31) (hcnt : q.cnt = BitVec.ofNat 32 due - n) : q.headDue = true ↔ due ≤ n.toNat := by
  have hnat : (BitVec.ofNat 32 due).toNat = due := by rw [BitVec.toNat_ofNat]; omega
  rw [headDue, he, Bool.not_false, Bool.true_and, hcnt, sle_zero_sub_of_lt (by rwa [hnat]) hn, hnat]

theorem meetsSchedule_of_not_due {q : Queue} (hq : LoopInv q) {n : Word} (hn : n.toNat < 2 ^ 31) {due : Nat}
    (hcnt : q.cnt = BitVec.ofNat 32 due - n) (hdues : ∀ x ∈ dueTimes due q.live, x < 2 ^ 31)
    (h : q.headDue = false) : MeetsSchedule n (dueTimes due q.live) q (q, []) := by
  cases he : q.empty with
  | true =>
    have hnil := hq.live_of_empty he
    exact ⟨by simp [hnil], by simp [hnil], fun h => by rw [he] at h; cases h⟩
  | false =>
    have hlt : n.toNat < due := by
      rwa [← Bool.not_eq_true, headDue_iff_due_le he hn (hdues due (hq.due_mem he due)) hcnt, Nat.not_le] at h
    have hzero := countP_le_eq_zero fun x hx => hlt.trans_le (le_of_mem_dueTimes (evs := q.live) hx)
    exact ⟨by rw [hzero]; rfl, by rw [hzero]; rfl, fun _ => ⟨due, hlt, hcnt, by rw [hzero]; rfl⟩⟩

/-- The loop meets the schedule: the countdown is the next due point less the elapsed cycles, and no sum wraps. -/
theorem drain_meetsSchedule {k : Nat} {q : Queue} (hk : q.passesLeft ≤ k) (hq : LoopInv q) {n : Word}
    (hn : n.toNat < 2 ^ 31) {due : Nat} (hcnt : q.cnt = BitVec.ofNat 32 due - n)
    (hdues : ∀ x ∈ dueTimes due q.live, x < 2 ^ 31) : MeetsSchedule n (dueTimes due q.live) q (drain k q) := by
  induction k generalizing q due with
  | zero =>
    cases h : q.headDue with
    | false => exact meetsSchedule_of_not_due hq hn hcnt hdues h
    | true => have := passesLeft_pop (not_empty_of_headDue h); omega
  | succ k ih =>
    cases h : q.headDue with
    | false => rw [drain_of_not_due h]; exact meetsSchedule_of_not_due hq hn hcnt hdues h
    | true =>
      have he := not_empty_of_headDue h
      have hpasses := passesLeft_pop he
      have hle := (headDue_iff_due_le he hn (hdues due (hq.due_mem he due)) hcnt).1 h
      rw [drain_of_due h]
      cases hq.popStep he with
      | last ev live write popLive popEmpty =>
        rw [drain_of_empty popEmpty, live, dueTimes_single, write]
        refine ⟨?_, ?_, fun h => ?_⟩
        · simp [hle, live]
        · simp [hle, live, popLive]
        · rw [popEmpty] at h; cases h
      | more ev next rest live write popLive popEmpty popCnt =>
        rw [live, dueTimes_cons_cons, ← popLive] at hdues ⊢
        have hcnt' : q.pop.cnt = BitVec.ofNat 32 (due + next.delayCycles.toNat) - n := by
          rw [popCnt, hcnt]
          bv_omega
        obtain ⟨hout, hlive, hnext⟩ :=
          ih (by omega) (hq.pop he) hcnt' fun x hx => hdues x (List.mem_cons_of_mem _ hx)
        refine ⟨?_, ?_, ?_⟩
        · rw [countP_le_cons hle, live, ← popLive, hout, write]; rfl
        · rw [countP_le_cons hle, live, ← popLive, hlive]; rfl
        · rw [countP_le_cons hle]; exact hnext

/-- APPLY inside the no-wrap range, on the queue group. -/
theorem applyDue_meetsSchedule {q : Queue} (hq : q.Inv) (hw : q.noWrap) {n : Word} (hn : n.toNat < 2 ^ 31) :
    MeetsSchedule n q.dues q (q.applyDue n) := by
  have hdrain := drain_meetsSchedule (q := { q with cnt := elapse q.cnt n }) (passesLeft_le _) (hq.loopInv _) hn
    (due := q.cnt.toNat) (by simp [elapse]) hw.2
  refine ⟨hdrain.out, by rw [applyDue_eq, settle_live]; exact hdrain.live, fun he => ?_⟩
  rw [applyDue_eq] at he ⊢
  rw [(settle_buf _).2.2.2] at he
  rw [settle_of_not_empty he]
  exact hdrain.next he

/-- What APPLY leaves, inside the no-wrap range: the due points not yet reached, as seen `n` cycles later. -/
theorem applyDue_schedule {q : Queue} (hq : q.Inv) (hw : q.noWrap) {n : Word} (hn : n.toNat < 2 ^ 31) :
    let k := q.dues.countP (· ≤ n.toNat)
    (q.applyDue n).1.dues = (q.dues.drop k).map (· - n.toNat) ∧
      (q.applyDue n).1.cnt.toNat = (q.dues.drop k).head?.getD n.toNat - n.toNat := by
  intro k
  obtain ⟨-, hlive, hnext⟩ := applyDue_meetsSchedule hq hw hn
  have hinv := (applyDue_keeps_inv hq n).loopInv (q.applyDue n).1.cnt
  cases he : (q.applyDue n).1.empty with
  | true =>
    have hnil : (q.applyDue n).1.live = [] := hinv.live_of_empty he
    have hdrop : q.dues.drop k = [] := by
      rw [hnil, eq_comm, List.drop_eq_nil_iff] at hlive
      rw [List.drop_eq_nil_iff, dues, length_dueTimes]
      exact hlive
    rw [dues, hnil, hdrop, applyDue_cnt_of_empty q n he]
    exact ⟨rfl, (Nat.sub_self _).symm⟩
  | false =>
    obtain ⟨due, hlt, hcnt, hdues⟩ := hnext he
    have hne : (q.applyDue n).1.live ≠ [] := hinv.live_ne_nil he
    have hmem : due ∈ q.dues := List.mem_of_mem_drop (hdues ▸ List.mem_of_head? (head?_dueTimes due hne))
    have hbound := hw.2 due hmem
    have hnat : (q.applyDue n).1.cnt.toNat = due - n.toNat := by
      rw [hcnt]
      bv_omega
    rw [← show dueTimes due (q.applyDue n).1.live = q.dues.drop k from hdues, dues, hnat, head?_dueTimes due hne]
    exact ⟨dueTimes_sub hlt.le, rfl⟩

theorem applyDue_noWrap {q : Queue} (hq : q.Inv) (hw : q.noWrap) {n : Word} (hn : n.toNat < 2 ^ 31) :
    (q.applyDue n).1.noWrap := by
  obtain ⟨hdues, hcnt⟩ := applyDue_schedule hq hw hn
  have hdrop : ∀ x ∈ q.dues.drop (q.dues.countP (· ≤ n.toNat)), x < 2 ^ 31 := fun x hx =>
    hw.2 x (List.mem_of_mem_drop hx)
  constructor
  · rw [hcnt]
    cases hh : (q.dues.drop (q.dues.countP (· ≤ n.toNat))).head? with
    | none => simp
    | some x =>
      have := hdrop x (List.mem_of_head? hh)
      rw [Option.getD_some]
      omega
  · rw [hdues]
    intro x hx
    obtain ⟨y, hy, rfl⟩ := List.mem_map.1 hx
    exact Nat.lt_of_le_of_lt (Nat.sub_le ..) (hdrop y hy)

end Queue

/-- Settles O31: the loop meets the schedule. -/
theorem applyMeetsTheSchedule : Obligations.ApplyMeetsTheSchedule := by
  intro n s hq hw hn
  obtain ⟨hout, hlive, -⟩ := Queue.applyDue_meetsSchedule hq hw hn
  obtain ⟨hdues, hcnt⟩ := Queue.applyDue_schedule hq hw hn
  exact ⟨s.applyDue n, rfl, by rw [State.applyDue_applyLog, hout], hlive, hdues, hcnt,
    Queue.applyDue_noWrap hq hw hn⟩

/-! ## Splitting the elapsed cycles -/

/-- A queue is known by its slots, `wr`, its live events and the countdown. -/
theorem Queue.eq_of_live_eq {q q' : Queue} (hq : q.Inv) (hq' : q'.Inv) (hbuf : q.buf = q'.buf) (hwr : q.wr = q'.wr)
    (hlive : q.live = q'.live) (hcnt : q.cnt = q'.cnt) : q = q' := by
  have hrd : q.rd = q'.rd := by
    have hcount : q.liveCount = q'.liveCount := by rw [← length_live, ← length_live, hlive]
    simp only [liveCount] at hcount
    bv_omega
  have hempty : q.empty = q'.empty := Bool.eq_iff_iff.2 (by rw [hq.emptyIff, hq'.emptyIff, hrd, hwr])
  cases q
  cases q'
  simp_all

/-- Of rising due points, those reached by `a + b` are those reached by `a`, and then by `b` more. -/
theorem countP_le_add {dues : List Nat} (hsorted : dues.Pairwise (· ≤ ·)) (a b : Nat) :
    dues.countP (· ≤ a + b) =
      dues.countP (· ≤ a) + ((dues.drop (dues.countP (· ≤ a))).map (· - a)).countP (· ≤ b) := by
  induction hsorted with
  | nil => rfl
  | @cons x xs hx _ ih =>
    by_cases h : x ≤ a
    · rw [countP_le_cons h, countP_le_cons (h.trans (Nat.le_add_right ..)), List.drop_succ_cons, ih]
      omega
    · have hzero : (x :: xs).countP (· ≤ a) = 0 := countP_le_eq_zero fun y hy => by
        obtain rfl | hy := List.mem_cons.1 hy
        · exact Nat.not_le.1 h
        · exact (Nat.not_le.1 h).trans_le (hx y hy)
      rw [hzero, Nat.zero_add, List.drop_zero, List.countP_map]
      refine List.countP_congr fun y _ => ?_
      simp only [Function.comp_apply, decide_eq_true_eq]
      omega

/-- Settles O32: both ways return the events due by `a + b` in order, and leave the same live events with the same
countdown, so the same queue. -/
theorem splittingCyclesDoesNotMatter : Obligations.SplittingCyclesDoesNotMatter := by
  intro a b s hq hw hlt
  have ha : a.toNat < 2 ^ 31 := by omega
  have hb : b.toNat < 2 ^ 31 := by omega
  have hab : (a + b).toNat = a.toNat + b.toNat := BitVec.toNat_add_of_lt (by omega)
  have hq₁ := Queue.applyDue_keeps_inv hq a
  have hw₁ := Queue.applyDue_noWrap hq hw ha
  obtain ⟨hout₁, hlive₁, -⟩ := Queue.applyDue_meetsSchedule hq hw ha
  obtain ⟨hout₂, hlive₂, -⟩ := Queue.applyDue_meetsSchedule hq₁ hw₁ hb
  obtain ⟨hout, hlive, -⟩ := Queue.applyDue_meetsSchedule hq hw (n := a + b) (by omega)
  obtain ⟨hdues₁, -⟩ := Queue.applyDue_schedule hq hw ha
  obtain ⟨-, hcnt₂⟩ := Queue.applyDue_schedule hq₁ hw₁ hb
  obtain ⟨-, hcnt⟩ := Queue.applyDue_schedule hq hw (n := a + b) (by omega)
  obtain ⟨hbuf₁, hwr₁⟩ := Queue.applyDue_frame s.queue a
  obtain ⟨hbuf₂, hwr₂⟩ := Queue.applyDue_frame (s.queue.applyDue a).1 b
  obtain ⟨hbuf, hwr⟩ := Queue.applyDue_frame s.queue (a + b)
  have hcount := countP_le_add (pairwise_dueTimes s.queue.cnt.toNat s.queue.live) a.toNat b.toNat
  rw [← Queue.dues] at hcount
  rw [hab, hcount] at hout hlive hcnt
  rw [hdues₁] at hout₂ hlive₂ hcnt₂
  have hqueue : ((s.queue.applyDue a).1.applyDue b).1 = (s.queue.applyDue (a + b)).1 := by
    refine Queue.eq_of_live_eq (Queue.applyDue_keeps_inv hq₁ b) (Queue.applyDue_keeps_inv hq _)
      (by rw [hbuf₂, hbuf₁, hbuf]) (by rw [hwr₂, hwr₁, hwr]) (by rw [hlive₂, hlive₁, hlive, List.drop_drop]) ?_
    apply BitVec.eq_of_toNat_eq
    rw [hcnt₂, hcnt, ← List.map_drop, List.drop_drop, List.head?_map]
    cases (s.queue.dues.drop _).head? with
    | none => simp
    | some x => simp [Nat.sub_sub]
  refine ⟨(s.applyDue a).applyDue b, (s.queue.applyDue a).2, ((s.queue.applyDue a).1.applyDue b).2, ?_, ?_⟩
  · rw [execAll_cons (exec_apply a s), execAll_cons (exec_apply b _), execAll_nil]
    congr 1
    simp [State.applyDue]
  · have happend : (s.queue.applyDue a).2 ++ ((s.queue.applyDue a).1.applyDue b).2 = (s.queue.applyDue (a + b)).2 := by
      rw [hout₁, hout₂, hout, hlive₁, ← List.map_append, ← List.take_add]
    rw [happend, exec_apply, State.applyDue, ← hqueue]
    rfl

/-! ## A constant operand -/

/-- The live events with their due points. -/
def Queue.timed (q : Queue) : List (RegisterWriteEvent × Nat) := q.live.zip q.dues

/-- Of events with rising due points, those reached by `n` are the first ones. -/
theorem filter_due_le {timed : List (RegisterWriteEvent × Nat)} (hsorted : (timed.map Prod.snd).Pairwise (· ≤ ·))
    (n : Nat) :
    timed.filter (fun e => e.2 ≤ n) = timed.take ((timed.map Prod.snd).countP (· ≤ n)) ∧
      timed.filter (fun e => n < e.2) = timed.drop ((timed.map Prod.snd).countP (· ≤ n)) := by
  induction timed with
  | nil => exact ⟨rfl, rfl⟩
  | cons e timed ih =>
    rw [List.map_cons, List.pairwise_cons] at hsorted
    obtain ⟨hfirst, hsorted⟩ := hsorted
    by_cases h : e.2 ≤ n
    · rw [List.map_cons, countP_le_cons h]
      simp [h, ih hsorted]
    · have hlate : ∀ e' ∈ e :: timed, n < e'.2 := by
        intro e' he'
        obtain rfl | he' := List.mem_cons.1 he'
        · exact Nat.not_le.1 h
        · exact (Nat.not_le.1 h).trans_le (hfirst _ (List.mem_map_of_mem he'))
      have hzero : ((e :: timed).map Prod.snd).countP (· ≤ n) = 0 :=
        countP_le_eq_zero fun x hx => by
          obtain ⟨e', he', rfl⟩ := List.mem_map.1 hx
          exact hlate e' he'
      rw [hzero]
      exact ⟨List.filter_eq_nil_iff.2 fun e' he' => by simpa using hlate e' he',
        List.filter_eq_self.2 fun e' he' => by simpa using hlate e' he'⟩

/-- APPLY inside the no-wrap range, event by event. -/
theorem Queue.applyDue_timed {q : Queue} (hq : q.Inv) (hw : q.noWrap) {n : Word} (hn : n.toNat < 2 ^ 31) :
    (q.applyDue n).2 = (q.timed.filter (fun e => e.2 ≤ n.toNat)).map (fun e => writeOf e.1) ∧
      (q.applyDue n).1.timed =
        (q.timed.filter (fun e => n.toNat < e.2)).map (fun e => (e.1, e.2 - n.toNat)) := by
  obtain ⟨hout, hlive, -⟩ := applyDue_meetsSchedule hq hw hn
  obtain ⟨hdues, -⟩ := applyDue_schedule hq hw hn
  have hlen : q.live.length = q.dues.length := (length_dueTimes ..).symm
  have hsnd : q.timed.map Prod.snd = q.dues := List.map_snd_zip hlen.ge
  have hsorted : (q.timed.map Prod.snd).Pairwise (· ≤ ·) := by rw [hsnd]; exact pairwise_dueTimes ..
  obtain ⟨htake, hdrop⟩ := filter_due_le hsorted n.toNat
  rw [htake, hdrop, hsnd, hout]
  constructor
  · conv_lhs => rw [← List.map_fst_zip hlen.le]
    rw [← List.map_take, List.map_map]
    rfl
  · rw [timed, hlive, hdues, List.zip_map_right, timed, List.zip, List.drop_zipWith]
    rfl

/-- The number, from 1, of the APPLY `n` that applies an event due `due` cycles from now (R168). -/
def applyNumber (n due : Nat) : Nat := max 1 ((due + n - 1) / n)

theorem applyNumber_of_le {n due : Nat} (hn : 0 < n) (h : due ≤ n) : applyNumber n due = 1 := by
  refine Nat.max_eq_left ?_
  have : (due + n - 1) / n < 2 := (Nat.div_lt_iff_lt_mul hn).2 (by omega)
  omega

theorem applyNumber_of_lt {n due : Nat} (hn : 0 < n) (h : n < due) :
    applyNumber n due = applyNumber n (due - n) + 1 := by
  have hsplit : due + n - 1 = (due - n + n - 1) + n := by omega
  have hone : 1 ≤ (due - n + n - 1) / n := (Nat.one_le_div_iff hn).2 (by omega)
  rw [applyNumber, applyNumber, hsplit, Nat.add_div_right _ hn]
  omega

/-- Settles O33, by induction on the number of samples: the first APPLY applies the events due by `n`, and the others
are due `n` cycles sooner for the samples that follow. -/
theorem renderQuantisesToTheOperand : Obligations.RenderQuantisesToTheOperand := by
  intro n k
  induction k with
  | zero => exact fun s _ _ _ _ => ⟨s, [], rfl, by simp, rfl, fun j hj => absurd hj (Nat.not_lt_zero j)⟩
  | succ k ih =>
    intro s hq hw hpos hlt
    rw [Nat.succ_mul] at hlt
    have hn : n.toNat < 2 ^ 31 := by omega
    obtain ⟨hout, htimed⟩ := Queue.applyDue_timed hq hw hn
    obtain ⟨t, outs, hrun, hlog, hlen, houts⟩ :=
      ih (s.applyDue n) (Queue.applyDue_keeps_inv hq n) (Queue.applyDue_noWrap hq hw hn) hpos (by omega)
    refine ⟨t, (s.queue.applyDue n).2 :: outs, ?_, ?_, by rw [List.length_cons, hlen], fun j hj => ?_⟩
    · rw [render, List.replicate_succ, execAll_cons (exec_apply n s)]
      exact hrun
    · rw [hlog, State.applyDue_applyLog, List.append_assoc, List.singleton_append]
    · change _ = some ((s.queue.timed.filter fun e => applyNumber n.toNat e.2 == j + 1).map fun e => writeOf e.1)
      cases j with
      | zero =>
        rw [List.getElem?_cons_zero, hout]
        congr 2
        refine List.filter_congr fun e _ => ?_
        by_cases h : e.2 ≤ n.toNat
        · simp [h, applyNumber_of_le hpos h]
        · have hone : 1 ≤ applyNumber n.toNat (e.2 - n.toNat) := Nat.le_max_left ..
          have hne : applyNumber n.toNat (e.2 - n.toNat) ≠ 0 := by omega
          simp [h, applyNumber_of_lt hpos (Nat.not_le.1 h), hne]
      | succ j =>
        have hj := houts j (by omega)
        change _ = some (((s.queue.applyDue n).1.timed.filter fun e => applyNumber n.toNat e.2 == j + 1).map
          fun e => writeOf e.1) at hj
        rw [List.getElem?_cons_succ, hj, htimed, List.filter_map, List.filter_filter, List.map_map]
        congr 2
        refine List.filter_congr fun e _ => ?_
        by_cases h : n.toNat < e.2
        · simp [h, applyNumber_of_lt hpos h]
        · simp [h, applyNumber_of_le hpos (Nat.not_lt.1 h)]

end Sys2Proof.Machine
end

section
/-! SUPPORT. The ports: a step runs at most two operations, which and in which order its request and the arbitration fix
(spec/30_encoding.md R82, R83; spec/20_memory.md R59); and what every instruction and every step keep. -/

namespace Sys2Proof.Machine

/-! ## What a request runs -/

/-- The instructions the ports can ask for: those of the producer port, the consumer port and the reset input. -/
inductive OnPort : Instr → Prop where
  | feed (b : Byte) : OnPort (.feed b)
  | enq (a v : Byte) (d : Word) : OnPort (.enq a v d)
  | dreset : OnPort .dreset
  | qclear : OnPort .qclear
  | apply (n : Word) : OnPort (.apply n)
  | reset : OnPort .reset

theorem decodeProducer_onPort (c : BitVec 50) : OnPort (decodeProducer c) := by
  unfold decodeProducer
  split
  · exact .feed _
  · split
    · exact .enq ..
    · split
      · exact .dreset
      · exact .qclear

theorem execAll_single (i : Instr) (s : State) : execAll [i] s = exec i s := by
  obtain ⟨t, h⟩ := exec_total i s
  rw [execAll_cons h, execAll_nil, h]

theorem execAll_pair (i j : Instr) (s : State) : execAll [i, j] s = andThen (exec i s) (exec j) := by
  obtain ⟨t, h⟩ := exec_total i s
  rw [execAll_cons h, execAll_single, h]
  rfl

/-- R59: both operations of a pair run, in one of the two orders. -/
theorem runPair_eq (p c : Instr) (s : State) :
    runPair p c s = execAll (if s.producerFirst then [p, c] else [c, p]) s.countPair := by
  unfold runPair
  split
  · exact (execAll_pair p c _).symm
  · exact (execAll_pair c p _).symm

/-- How many free orders have been used up after a pair (log 2). -/
def Arb.countAfterPair (arb : Arb) (k : Nat) : Nat :=
  match arb with
  | .producerFirst => k
  | .consumerFirst => k
  | .any => k + 1

theorem State.countPair_eq (s : State) :
    s.countPair = { s with arbCount := Arb.countAfterPair s.arb s.arbCount } := by
  obtain ⟨dec, stats, queue, magic, arb, arbCount, ports, applyLog⟩ := s
  cases arb <;> rfl

theorem State.producerFirst_congr {s s' : State} (harb : s.arb = s'.arb) (hcount : s.arbCount = s'.arbCount) :
    s.producerFirst = s'.producerFirst := by
  unfold producerFirst
  rw [harb, hcount]

/-- A request fixes, with the arbitration, the operations it runs. -/
theorem runRequest_runs (r : PortRequest) (s : State) :
    ∃ ops k, (∀ i ∈ ops, OnPort i) ∧
      ∀ s' : State, s'.arb = s.arb → s'.arbCount = s.arbCount →
        runRequest r s' = execAll ops { s' with arbCount := k } := by
  obtain ⟨rst, producer, consumer⟩ := r
  cases rst with
  | true => exact ⟨[.reset], s.arbCount, by simpa using .reset, fun s' _ hk => by rw [execAll_single, ← hk]; rfl⟩
  | false =>
    match producer, consumer with
    | none, none => exact ⟨[], s.arbCount, by simp, fun s' _ hk => by rw [execAll_nil, ← hk]; rfl⟩
    | some c, none =>
      exact ⟨[decodeProducer c], s.arbCount, by simpa using decodeProducer_onPort c,
        fun s' _ hk => by rw [execAll_single, ← hk]; rfl⟩
    | none, some n =>
      exact ⟨[.apply n], s.arbCount, by simpa using .apply n, fun s' _ hk => by rw [execAll_single, ← hk]; rfl⟩
    | some c, some n =>
      refine ⟨if s.producerFirst then [decodeProducer c, .apply n] else [.apply n, decodeProducer c],
        Arb.countAfterPair s.arb s.arbCount, fun i hi => ?_, fun s' harb hk => ?_⟩
      · have hi : i = decodeProducer c ∨ i = .apply n := by
          split at hi
          · simpa using hi
          · simpa [or_comm] using hi
        obtain rfl | rfl := hi
        · exact decodeProducer_onPort c
        · exact .apply n
      · rw [← State.producerFirst_congr harb hk, ← harb, ← hk, ← State.countPair_eq, ← runPair_eq]
        rfl

/-- A step runs operations of the ports, fixed by the requests and the arbitration, in the state with the request
taken. -/
theorem step_runs (s : State) :
    ∃ ops rest k, (∀ i ∈ ops, OnPort i) ∧
      ∀ s' : State, s'.ports = s.ports → s'.arb = s.arb → s'.arbCount = s.arbCount →
        step s' = execAll ops { s' with ports := rest, arbCount := k } := by
  cases hports : s.ports with
  | nil =>
    refine ⟨[], [], s.arbCount, by simp, fun s' hp _ hk => ?_⟩
    have hidle : step s' = .next s' := by rw [step, hp]
    rw [hidle, execAll_nil, ← hk, ← hp]
  | cons r rest =>
    obtain ⟨ops, k, hops, hrun⟩ := runRequest_runs r s
    refine ⟨ops, rest, k, hops, fun s' hp harb hk => ?_⟩
    rw [step, hp]
    exact hrun _ harb hk

/-- What every operation of the ports keeps, a run of them keeps. -/
theorem execAll_preserves {P : State → Prop} (hexec : ∀ i s t, OnPort i → P s → exec i s = .next t → P t)
    {ops : List Instr} (hops : ∀ i ∈ ops, OnPort i) {s t : State} (hs : P s) (h : execAll ops s = .next t) : P t := by
  induction ops generalizing s with
  | nil => cases h; exact hs
  | cons i ops ih =>
    obtain ⟨u, hu⟩ := exec_total i s
    rw [execAll_cons hu] at h
    exact ih (fun j hj => hops j (List.mem_cons_of_mem _ hj)) (hexec i s u (hops i List.mem_cons_self) hs hu) h

/-- What every operation of the ports keeps, and the taking of a request, every step keeps. -/
theorem step_preserves {P : State → Prop} (hports : ∀ s ports k, P s → P { s with ports := ports, arbCount := k })
    (hexec : ∀ i s t, OnPort i → P s → exec i s = .next t → P t) {s t : State} (hs : P s)
    (h : step s = .next t) : P t := by
  obtain ⟨ops, rest, k, hops, hrun⟩ := step_runs s
  rw [hrun s rfl rfl rfl] at h
  exact execAll_preserves hexec hops (hports s rest k hs) h

/-! ## Totality, frame and order -/

/-- Settles O1: every instruction answers, so every step does. -/
theorem everyOperationCompletes : Obligations.EveryOperationCompletes := by
  refine ⟨fun i s => ?_, fun s => ?_⟩
  · obtain ⟨t, h⟩ := exec_total i s
    exact ⟨t, h, exec_applyLog h, exec_frame h⟩
  · obtain ⟨ops, rest, k, -, hrun⟩ := step_runs s
    rw [hrun s rfl rfl rfl]
    exact execAll_total ops _

/-- The record of returned lists only grows. -/
theorem exec_applyLog_prefix {i : Instr} {s t : State} (h : exec i s = .next t) : s.applyLog <+: t.applyLog := by
  cases QueueStep.of_exec h with
  | pushes queue applyLog => rw [applyLog]
  | applies n instr queue applyLog => rw [applyLog]; exact List.prefix_append _ _
  | clears instr queue applyLog => rw [applyLog]
  | resets instr queue applyLog => rw [applyLog]

/-- Settles O40: the frame of an instruction, and what each operation of a step keeps. -/
theorem parametersAreNeverWritten : Obligations.ParametersAreNeverWritten := by
  have hexec : ∀ {i : Instr} {s t : State}, exec i s = .next t →
      t.magic = s.magic ∧ t.arb = s.arb ∧ t.ports = s.ports := fun h => by
    rw [exec_frame h]
    exact ⟨rfl, rfl, rfl⟩
  refine ⟨fun i s t h => ?_, fun s t h => ?_⟩
  · obtain ⟨hmagic, harb, hports⟩ := hexec h
    exact ⟨hmagic, harb, hports, exec_applyLog h⟩
  · refine step_preserves (P := fun u => u.magic = s.magic ∧ u.arb = s.arb ∧ s.applyLog <+: u.applyLog)
      (fun _ _ _ hu => hu) (fun i u v _ hu huv => ?_) ⟨rfl, rfl, List.prefix_rfl⟩ h
    obtain ⟨hmagic, harb, hlog⟩ := hu
    obtain ⟨hmagic', harb', -⟩ := hexec huv
    exact ⟨hmagic'.trans hmagic, harb'.trans harb, hlog.trans (exec_applyLog_prefix huv)⟩

/-- Settles O45: the request of one port, by the decoder's reading of its word. -/
theorem stepRunsTheDecodedCommand : Obligations.StepRunsTheDecodedCommand := by
  refine ⟨fun s h => by rw [step, h], fun s r rest hports => ?_⟩
  obtain ⟨rst, producer, consumer⟩ := r
  have hstep : step s = runRequest ⟨rst, producer, consumer⟩ { s with ports := rest } := by rw [step, hports]
  rw [hstep]
  refine ⟨?_, ?_, ?_, ?_⟩
  · rintro rfl; rfl
  · rintro rfl rfl rfl; rfl
  · rintro c i rfl rfl rfl h; cases h; rfl
  · rintro n i rfl rfl rfl h; cases h; rfl

/-- Settles O47: the arbitration selects the order, and under `Any` the free value selects one of the two. -/
theorem simultaneousPairRunsInEitherOrder : Obligations.SimultaneousPairRunsInEitherOrder := by
  intro s c n rest hports u producerFirst consumerFirst
  have hstep : step s = execAll
      (if (u s.arbCount).producerFirst then [decodeProducer c, .apply n] else [.apply n, decodeProducer c])
      (u (Arb.countAfterPair s.arb s.arbCount)) := by
    have hrun : step s = runPair (decodeProducer c) (.apply n) (u s.arbCount) := by
      rw [step, hports]
      rfl
    rw [hrun, runPair_eq, State.countPair_eq]
  rw [hstep, State.producerFirst]
  refine ⟨fun h => ?_, fun h => ?_, fun h => ?_⟩
  · rw [show (u s.arbCount).arb = _ from h]; rfl
  · rw [show (u s.arbCount).arb = _ from h]; rfl
  · rw [show (u s.arbCount).arb = _ from h]
    cases Config.producerFirstAt (u s.arbCount).arbCount with
    | true => exact .inl rfl
    | false => exact .inr rfl

/-! ## The counters -/

/-- Settles O6: each row counts at most once; FEED by its cases. -/
theorem statsOnlyCountUp : Obligations.StatsOnlyCountUp := by
  intro i s t h
  cases i with
  | reset => cases h; exact .inl ⟨rfl, rfl⟩
  | feed b =>
    obtain ⟨evs, hfeed⟩ := FeedStep.of_exec h
    right
    cases hfeed <;> simp
  | _ => cases h; right; simp

/-! ## Ownership -/

/-- FEED, ENQ and PUSH leave the queue as it was or push one event. -/
theorem exec_queue_of_pushing {i : Instr} {s t : State}
    (hi : (∃ b, i = .feed b) ∨ (∃ a v d, i = .enq a v d) ∨ (∃ ev, i = .push ev)) (h : exec i s = .next t) :
    t.queue = s.queue ∨ ∃ ev, t.queue = s.queue.push ev := by
  obtain ⟨b, rfl⟩ | ⟨a, v, d, rfl⟩ | ⟨ev, rfl⟩ := hi
  · obtain ⟨evs, hfeed⟩ := FeedStep.of_exec h
    cases hfeed with
    | write hs hf hk hc ev hev => exact .inr ⟨ev, rfl⟩
    | _ => exact .inl rfl
  · cases h; exact .inr ⟨_, rfl⟩
  · cases h; exact .inr ⟨_, rfl⟩

/-- A PUSH writes a slot only at `wr`, and only when the queue is not full. -/
theorem Queue.push_buf_read {q : Queue} (hwf : q.buf.wf = true) (ev : RegisterWriteEvent) {k : SlotIndex}
    (hk : k ≠ q.wr ∨ q.isFull = true) : (q.push ev).buf.read k = q.buf.read k := by
  cases hf : q.isFull with
  | true => rw [push_of_full hf]
  | false =>
    rw [hf] at hk
    rw [push_of_not_full hf, Memory.read_write hwf, if_neg (hk.resolve_right (by simp))]

theorem Queue.push_wr (q : Queue) (ev : RegisterWriteEvent) :
    (q.push ev).wr = q.wr ∨ ((q.push ev).wr = q.wr + 1 ∧ q.isFull = false) := by
  cases hf : q.isFull with
  | true => exact .inl (by rw [push_of_full hf])
  | false => exact .inr ⟨by rw [push_of_not_full hf]; rfl, rfl⟩

/-- Settles O39: each side's operations, by the laws of the queue operation they make. -/
theorem eachSideWritesOnlyItsOwn : Obligations.EachSideWritesOnlyItsOwn := by
  refine ⟨fun n s t h => ?_, fun i s t hi hwf h => ?_, fun i s t hi h => ?_, fun s t h => ?_, fun s t h => ?_,
    fun s s' t t' h h' => ?_⟩
  · cases h
    obtain ⟨hbuf, hwr⟩ := Queue.applyDue_frame s.queue n
    exact ⟨rfl, rfl, hbuf, hwr, fun he => by rw [State.applyDue_queue, Queue.applyDue_of_empty he]; exact he⟩
  · obtain hsame | ⟨ev, hpush⟩ := exec_queue_of_pushing hi h
    · rw [hsame]
      exact ⟨rfl, fun _ _ => rfl, .inl rfl, fun he => ⟨he, rfl⟩⟩
    · rw [hpush]
      exact ⟨Queue.push_rd _ ev, fun k hk => Queue.push_buf_read hwf ev hk, Queue.push_wr _ ev,
        fun he => ⟨Queue.push_empty _ ev he, Queue.push_cnt _ ev he⟩⟩
  · obtain ⟨a, v, d, rfl⟩ | ⟨ev, rfl⟩ := hi
    · cases h; exact ⟨rfl, rfl⟩
    · cases h; exact ⟨rfl, rfl⟩
  · cases h; exact ⟨rfl, rfl⟩
  · cases h; exact ⟨rfl, rfl, rfl, rfl, rfl⟩
  · cases h; cases h'; exact ⟨rfl, rfl, rfl, rfl, rfl, rfl⟩

/-! ## Reset and the status outputs -/

/-- Settles O2: RESET leaves the cleared decoder, Stats and queue. -/
theorem hardwareResetClearsBothGroups : Obligations.HardwareResetClearsBothGroups := fun s =>
  ⟨s.hardwareReset, rfl, rfl, rfl, rfl, Decoder.cleared_hdrBuf, Decoder.cleared_evtBuf, rfl, rfl, rfl, rfl, rfl, rfl,
    rfl, rfl, rfl, Queue.live_eq_nil.2 rfl, rfl, rfl, rfl, rfl, rfl, rfl⟩

/-- Settles O3: `State.reset` is written out of these values. -/
theorem resetStateHoldsTheTableOfValues : Obligations.ResetStateHoldsTheTableOfValues :=
  ⟨rfl, rfl, rfl, rfl, rfl, rfl, rfl, rfl⟩

/-- Settles O4: the cleared decoder and the initial queue meet their invariants. -/
theorem resetStateMeetsTheInvariant : Obligations.ResetStateMeetsTheInvariant :=
  ⟨Decoder.cleared_inv, Queue.initial_inv, rfl⟩

/-- Settles O53: `empty` and `stage` are the two outputs that are encoded. -/
theorem statusShowsTheState : Obligations.StatusShowsTheState := by
  intro s
  refine ⟨rfl, rfl, rfl, rfl, rfl, ?_, ?_⟩
  · cases he : s.queue.empty <;> simp [State.status, he]
  · cases hs : s.dec.stage <;> simp [State.status, stageBit, hs]

end Sys2Proof.Machine
end

section
/-! SUPPORT. Two properties every step keeps: the invariant of the machine (spec/10_state.md R36, R37), and that two
states differ at most in `frameNumber`, stale buffer bytes and dead slots (R42). -/

namespace Sys2Proof.Machine

/-! ## The invariant -/

theorem Decoder.eventEnd_inv {d : Decoder} (hd : d.Inv) (hs : d.stage = .readingEvents) (skipping : Bool) :
    (d.eventEnd skipping).Inv := by
  have h := endOfEvent_inv hd hs 0 skipping
  rwa [endOfEvent_eq] at h

/-- FEED keeps the decoder's invariant. -/
theorem FeedStep.decInv {b : Byte} {s t : State} {evs : List RegisterWriteEvent} (h : FeedStep b s t evs)
    (hd : s.dec.Inv) : t.dec.Inv := by
  cases h with
  | headerByte hs hf =>
    have hle := hd.hdrFillLe
    have hne : s.dec.hdrFill.toNat ≠ 11 := fun h => hf (BitVec.eq_of_toNat_eq h)
    exact Decoder.takeHeaderByte_inv hd hs (by omega) b
  | accept hs hf hm => exact Decoder.accept_inv s.dec _ _
  | slide hs hf hm => exact Decoder.slide_inv hd hs b
  | eventByte hs hf =>
    have hle := hd.evtFillLe
    have hne : s.dec.evtFill.toNat ≠ 7 := fun h => hf (BitVec.eq_of_toNat_eq h)
    exact Decoder.takeEventByte_inv hd hs (by omega) b
  | skip hs hf hk => exact Decoder.eventEnd_inv hd hs true
  | write hs hf hk hc ev hev => exact Decoder.eventEnd_inv hd hs false
  | unsupported hs hf hk hc => exact Decoder.eventEnd_inv hd hs true

/-- FEED never writes the reserved counter (R29). -/
theorem FeedStep.framesDropped {b : Byte} {s t : State} {evs : List RegisterWriteEvent} (h : FeedStep b s t evs) :
    t.stats.framesDropped = s.stats.framesDropped := by
  cases h <;> rfl

theorem exec_keeps_inv {i : Instr} {s t : State} (hi : OnPort i) (hs : s.Inv) (h : exec i s = .next t) : t.Inv := by
  have hqueue := exec_keeps_queueInv hs.queue h
  cases hi with
  | feed b =>
    obtain ⟨evs, hfeed⟩ := FeedStep.of_exec h
    exact ⟨hfeed.decInv hs.dec, hqueue, hfeed.framesDropped.trans hs.framesDropped⟩
  | enq a v d => cases h; exact ⟨hs.dec, hqueue, hs.framesDropped⟩
  | dreset => cases h; exact ⟨Decoder.cleared_inv, hqueue, hs.framesDropped⟩
  | qclear => cases h; exact ⟨hs.dec, hqueue, hs.framesDropped⟩
  | apply n => cases h; exact ⟨hs.dec, hqueue, hs.framesDropped⟩
  | reset => cases h; exact ⟨Decoder.cleared_inv, hqueue, rfl⟩

/-- Settles O5: every operation of the ports keeps the invariant, and a step runs nothing else. -/
theorem everyStepKeepsTheInvariant : Obligations.EveryStepKeepsTheInvariant := fun _ _ hs h =>
  step_preserves (P := State.Inv) (fun _ _ _ hu => ⟨hu.dec, hu.queue, hu.framesDropped⟩)
    (fun _ _ _ hi hu => exec_keeps_inv hi hu) hs h

/-! ## Alike decoders -/

namespace Decoder.Alike

theorem refl (d : Decoder) : d.Alike d := ⟨rfl, rfl, rfl, rfl, rfl, rfl, fun _ _ => rfl, fun _ _ => rfl⟩

variable {d d' : Decoder}

/-- A byte below the fill count was held before, or is the one just taken. -/
theorem takeHeaderByte (h : d.Alike d') (b : Byte) : (d.takeHeaderByte b).Alike (d'.takeHeaderByte b) where
  stage := h.stage
  hdrFill := congrArg (· + 1) h.hdrFill
  evtFill := h.evtFill
  expectedEvents := h.expectedEvents
  eventsRead := h.eventsRead
  skippingFrame := h.skippingFrame
  evtBuf := h.evtBuf
  hdrBuf i hi := by
    rw [takeHeaderByte_buf, takeHeaderByte_buf, ← h.hdrFill]
    by_cases hb : i.val = d.hdrFill.toNat
    · rw [if_pos hb, if_pos hb]
    · rw [if_neg hb, if_neg hb]
      refine h.hdrBuf i ?_
      simp only [Decoder.takeHeaderByte] at hi
      bv_omega

theorem takeEventByte (h : d.Alike d') (b : Byte) : (d.takeEventByte b).Alike (d'.takeEventByte b) where
  stage := h.stage
  hdrFill := h.hdrFill
  evtFill := congrArg (· + 1) h.evtFill
  expectedEvents := h.expectedEvents
  eventsRead := h.eventsRead
  skippingFrame := h.skippingFrame
  hdrBuf := h.hdrBuf
  evtBuf i hi := by
    rw [takeEventByte_buf, takeEventByte_buf, ← h.evtFill]
    by_cases hb : i.val = d.evtFill.toNat
    · rw [if_pos hb, if_pos hb]
    · rw [if_neg hb, if_neg hb]
      refine h.evtBuf i ?_
      simp only [Decoder.takeEventByte] at hi
      bv_omega

/-- With eleven header bytes held, those are equal. -/
theorem hdrBuf_getElem (h : d.Alike d') (hf : d.hdrFill = 11) {i : Nat} (hi : i < 11) : d.hdrBuf[i] = d'.hdrBuf[i] :=
  h.hdrBuf ⟨i, by omega⟩ (by rw [hf]; exact hi)

/-- With seven event bytes held, those are equal. -/
theorem evtBuf_getElem (h : d.Alike d') (hf : d.evtFill = 7) {i : Nat} (hi : i < 7) : d.evtBuf[i] = d'.evtBuf[i] :=
  h.evtBuf ⟨i, by omega⟩ (by rw [hf]; exact hi)

theorem firstWord (h : d.Alike d') (hf : d.hdrFill = 11) : d.firstWord = d'.firstWord := by
  simp only [Decoder.firstWord, h.hdrBuf_getElem hf, Nat.reduceLT]

/-- Accepting a header leaves nothing of the decoder before it. -/
theorem accept (d d' : Decoder) (eventCount frameNumber : Word) :
    (d.accept eventCount frameNumber).Alike (d'.accept eventCount frameNumber) := refl _

/-- The window that slides holds twelve bytes, all of them alive. -/
theorem slide (h : d.Alike d') (hf : d.hdrFill = 11) (b : Byte) :
    (d.takeHeaderByte b).slide.Alike (d'.takeHeaderByte b).slide := by
  have hbuf : (d.takeHeaderByte b).slide.hdrBuf = (d'.takeHeaderByte b).slide.hdrBuf := by
    simp only [Decoder.slide, takeHeaderByte_new hf, takeHeaderByte_new (h.hdrFill ▸ hf), takeHeaderByte_old hf,
      takeHeaderByte_old (h.hdrFill ▸ hf), h.hdrBuf_getElem hf, Nat.reduceLT]
  exact ⟨h.stage, rfl, h.evtFill, h.expectedEvents, h.eventsRead, h.skippingFrame, fun i _ => by rw [hbuf], h.evtBuf⟩

theorem eventEnd (h : d.Alike d') (skipping : Bool) : (d.eventEnd skipping).Alike (d'.eventEnd skipping) := by
  by_cases hlast : d.expectedEvents.toNat ≤ (d.eventsRead + 1).toNat
  · rw [eventEnd_of_last hlast, eventEnd_of_last (by rwa [← h.expectedEvents, ← h.eventsRead])]
    exact refl _
  · have hmore := Nat.not_le.1 hlast
    rw [eventEnd_of_more hmore, eventEnd_of_more (by rwa [← h.expectedEvents, ← h.eventsRead])]
    exact ⟨h.stage, h.hdrFill, rfl, h.expectedEvents, congrArg (· + 1) h.eventsRead, rfl, h.hdrBuf, fun _ _ => rfl⟩

end Decoder.Alike

/-! ## Alike queues -/

namespace Queue.Alike

variable {q q' : Queue}

theorem isFull (h : q.Alike q') : q.isFull = q'.isFull := by rw [Queue.isFull, Queue.isFull, h.wr, h.rd]

theorem headDue (h : q.Alike q') : q.headDue = q'.headDue := by rw [Queue.headDue, Queue.headDue, h.empty, h.cnt]

theorem push (h : q.Alike q') (hq : q.Inv) (hq' : q'.Inv) (ev : RegisterWriteEvent) :
    (q.push ev).Alike (q'.push ev) := by
  have hfull := h.isFull
  cases hf : q.isFull with
  | true => rwa [push_of_full hf, push_of_full (hfull ▸ hf)]
  | false =>
    have hlive : (q.push ev).live = (q'.push ev).live := by
      rw [live_push hq hf, live_push hq' (hfull ▸ hf), h.live]
    rw [push_of_not_full hf, push_of_not_full (hfull ▸ hf)] at hlive ⊢
    exact ⟨congrArg nextIndex h.wr, h.rd, rfl, by rw [h.empty, h.cnt], hlive⟩

/-- The head is live, so both queues emit the same write. -/
theorem headWrite (h : q.Alike q') (hne : q.rd ≠ q.wr) : q.headWrite = q'.headWrite := by
  have hlive := h.live
  rw [live_pop hne, live_pop (q := q') (by rwa [← h.rd, ← h.wr])] at hlive
  exact congrArg writeOf (List.cons.inj hlive).1

/-- A pass reads the head and, when there is one, the next live event. -/
theorem pop (h : q.Alike q') (hq : LoopInv q) (hq' : LoopInv q') (he : q.empty = false) : q.pop.Alike q'.pop := by
  have he' : q'.empty = false := by rw [← h.empty, he]
  have hlive : q.pop.live = q'.pop.live := by
    have hlive := h.live
    rw [live_pop (hq.rd_ne_wr he), live_pop (hq'.rd_ne_wr he')] at hlive
    exact (List.cons.inj hlive).2
  obtain ⟨hl, -⟩ | ⟨hl, rest, -, hpop⟩ := hq.live_cases he
  · have hl' : nextIndex q'.rd = q'.wr := by rwa [← h.rd, ← h.wr]
    rw [pop_of_last hl, pop_of_last hl'] at hlive ⊢
    exact ⟨h.wr, congrArg nextIndex h.rd, rfl, rfl, hlive⟩
  · obtain ⟨hl', -⟩ | ⟨hl', rest', -, hpop'⟩ := hq'.live_cases he'
    · exact absurd hl' (by rwa [← h.rd, ← h.wr])
    · have hnext : q.buf.read (nextIndex q.rd) = q'.buf.read (nextIndex q'.rd) := by
        rw [hlive, hpop'] at hpop
        exact (List.cons.inj hpop).1.symm
      rw [pop_of_more hl, pop_of_more hl'] at hlive ⊢
      exact ⟨h.wr, congrArg nextIndex h.rd, h.empty, by rw [h.cnt, hnext], hlive⟩

/-- The loops run side by side. -/
theorem drain (h : q.Alike q') (hq : LoopInv q) (hq' : LoopInv q') (k : Nat) :
    (Queue.drain k q).1.Alike (Queue.drain k q').1 ∧ (Queue.drain k q).2 = (Queue.drain k q').2 := by
  induction k generalizing q q' with
  | zero => exact ⟨h, rfl⟩
  | succ k ih =>
    cases hdue : q.headDue with
    | false =>
      rw [drain_of_not_due hdue, drain_of_not_due (h.headDue ▸ hdue)]
      exact ⟨h, rfl⟩
    | true =>
      have he := not_empty_of_headDue hdue
      have he' : q'.empty = false := by rw [← h.empty, he]
      obtain ⟨halike, hout⟩ := ih (h.pop hq hq' he) (hq.pop he) (hq'.pop he')
      rw [drain_of_due hdue, drain_of_due (h.headDue ▸ hdue), h.headWrite (hq.rd_ne_wr he), hout]
      exact ⟨halike, rfl⟩

theorem settle (h : q.Alike q') : q.settle.Alike q'.settle := by
  obtain ⟨-, hwr, hrd, hempty⟩ := settle_buf q
  obtain ⟨-, hwr', hrd', hempty'⟩ := settle_buf q'
  refine ⟨by rw [hwr, hwr', h.wr], by rw [hrd, hrd', h.rd], by rw [hempty, hempty', h.empty], ?_,
    by rw [settle_live, settle_live, h.live]⟩
  simp only [Queue.settle, ← h.empty]
  split
  · rfl
  · exact h.cnt

theorem applyDue (h : q.Alike q') (hq : q.Inv) (hq' : q'.Inv) (n : Word) :
    (q.applyDue n).1.Alike (q'.applyDue n).1 ∧ (q.applyDue n).2 = (q'.applyDue n).2 := by
  have hstart : ({ q with cnt := elapse q.cnt n } : Queue).Alike { q' with cnt := elapse q'.cnt n } :=
    ⟨h.wr, h.rd, h.empty, congrArg (elapse · n) h.cnt, h.live⟩
  obtain ⟨halike, hout⟩ := hstart.drain (hq.loopInv _) (hq'.loopInv _) drainPasses
  exact ⟨halike.settle, hout⟩

theorem clear (q q' : Queue) : q.clear.Alike q'.clear := ⟨rfl, rfl, rfl, rfl, by rw [live_clear, live_clear]⟩

end Queue.Alike

/-! ## Alike states -/

/-- FEED takes the same case in alike states, pushes the same events, and leaves alike states. -/
theorem FeedStep.alike {b : Byte} {s s' t : State} {evs : List RegisterWriteEvent} (h : FeedStep b s t evs)
    (ha : s.Alike s') (hq : s.queue.Inv) (hq' : s'.queue.Inv) : ∃ t', FeedStep b s' t' evs ∧ t.Alike t' := by
  obtain ⟨hdec, hqueue, hstats, hmagic, harb, harbCount, hports, hlog⟩ := ha
  have hstage := hdec.stage
  have hhdr := hdec.hdrFill
  have hevt := hdec.evtFill
  have hskip := hdec.skippingFrame
  cases h with
  | headerByte hs hf =>
    exact ⟨_, .headerByte (hstage ▸ hs) (hhdr ▸ hf),
      hdec.takeHeaderByte b, hqueue, hstats, hmagic, harb, harbCount, hports, hlog⟩
  | accept hs hf hm =>
    refine ⟨_, .accept (hstage ▸ hs) (hhdr ▸ hf) (by rw [← hdec.firstWord hf, hm, hmagic]), ?_, hqueue,
      by rw [hstats], hmagic, harb, harbCount, hports, hlog⟩
    simp only [hdec.hdrBuf_getElem hf, Nat.reduceLT]
    exact Decoder.Alike.accept ..
  | slide hs hf hm =>
    exact ⟨_, .slide (hstage ▸ hs) (hhdr ▸ hf) (by rwa [← hdec.firstWord hf, ← hmagic]),
      hdec.slide hf b, hqueue, hstats, hmagic, harb, harbCount, hports, hlog⟩
  | eventByte hs hf =>
    exact ⟨_, .eventByte (hstage ▸ hs) (hevt ▸ hf),
      hdec.takeEventByte b, hqueue, hstats, hmagic, harb, harbCount, hports, hlog⟩
  | skip hs hf hk =>
    exact ⟨_, .skip (hstage ▸ hs) (hevt ▸ hf) (hskip ▸ hk),
      hdec.eventEnd true, hqueue, hstats, hmagic, harb, harbCount, hports, hlog⟩
  | write hs hf hk hc ev hev =>
    simp only [hdec.evtBuf_getElem hf, Nat.reduceLT] at hc hev
    exact ⟨_, .write (hstage ▸ hs) (hevt ▸ hf) (hskip ▸ hk) hc ev hev,
      hdec.eventEnd false, hqueue.push hq hq' ev, by rw [hstats], hmagic, harb, harbCount, hports, hlog⟩
  | unsupported hs hf hk hc =>
    rw [hdec.evtBuf_getElem hf (by omega)] at hc
    exact ⟨_, .unsupported (hstage ▸ hs) (hevt ▸ hf) (hskip ▸ hk) hc,
      hdec.eventEnd true, hqueue, by rw [hstats], hmagic, harb, harbCount, hports, hlog⟩

/-- Every operation of the ports leaves alike states alike. -/
theorem exec_alike {i : Instr} {s s' : State} (hi : OnPort i) (ha : s.Alike s') (hq : s.queue.Inv)
    (hq' : s'.queue.Inv) : ∃ t t', exec i s = .next t ∧ exec i s' = .next t' ∧ t.Alike t' := by
  have ⟨hdec, hqueue, hstats, hmagic, harb, harbCount, hports, hlog⟩ := ha
  cases hi with
  | feed b =>
    obtain ⟨t, evs, h⟩ := FeedStep.total b s
    obtain ⟨t', h', halike⟩ := h.alike ha hq hq'
    exact ⟨t, t', h.exec, h'.exec, halike⟩
  | enq a v d =>
    exact ⟨_, _, rfl, rfl, hdec, hqueue.push hq hq' _, hstats, hmagic, harb, harbCount, hports, hlog⟩
  | dreset => exact ⟨_, _, rfl, rfl, .refl _, hqueue, hstats, hmagic, harb, harbCount, hports, hlog⟩
  | qclear => exact ⟨_, _, rfl, rfl, hdec, .clear _ _, hstats, hmagic, harb, harbCount, hports, hlog⟩
  | apply n =>
    obtain ⟨halike, hout⟩ := hqueue.applyDue hq hq' n
    exact ⟨_, _, rfl, rfl, hdec, halike, hstats, hmagic, harb, harbCount, hports,
      by rw [State.applyDue_applyLog, State.applyDue_applyLog, hlog, hout]⟩
  | reset =>
    exact ⟨_, _, rfl, rfl, .refl _, ⟨rfl, rfl, rfl, rfl, rfl⟩, rfl, hmagic, harb, harbCount, hports, hlog⟩

theorem execAll_alike {ops : List Instr} (hops : ∀ i ∈ ops, OnPort i) {s s' : State} (ha : s.Alike s')
    (hq : s.queue.Inv) (hq' : s'.queue.Inv) :
    ∃ t t', execAll ops s = .next t ∧ execAll ops s' = .next t' ∧ t.Alike t' := by
  induction ops generalizing s s' with
  | nil => exact ⟨s, s', rfl, rfl, ha⟩
  | cons i ops ih =>
    obtain ⟨u, u', hu, hu', halike⟩ := exec_alike (hops i List.mem_cons_self) ha hq hq'
    rw [execAll_cons hu, execAll_cons hu']
    exact ih (fun j hj => hops j (List.mem_cons_of_mem _ hj)) halike (exec_keeps_queueInv hq hu)
      (exec_keeps_queueInv hq' hu')

/-- Settles O43: alike states share the requests and the arbitration, so their steps run the same operations, each of
which leaves them alike. -/
theorem deadStateNeverMatters : Obligations.DeadStateNeverMatters := by
  intro s s' hq hq' ha
  have ⟨hdec, hqueue, hstats, hmagic, harb, harbCount, hports, hlog⟩ := ha
  refine ⟨by simp only [State.status, hstats, hqueue.cnt, hqueue.empty, hdec.stage], ?_⟩
  obtain ⟨ops, rest, k, hops, hrun⟩ := step_runs s
  rw [hrun s rfl rfl rfl, hrun s' hports.symm harb.symm harbCount.symm]
  obtain ⟨t, t', ht, ht', halike⟩ := execAll_alike (s := { s with ports := rest, arbCount := k })
    (s' := { s' with ports := rest, arbCount := k }) hops ⟨hdec, hqueue, hstats, hmagic, harb, rfl, rfl, hlog⟩ hq hq'
  exact ⟨t, t', ht, ht', halike, halike.applyLog⟩

end Sys2Proof.Machine
end

section
/-! SUPPORT. Words, bytes and instructions: every wire word is put together from its fields, so decoding and encoding
undo each other (spec/30_encoding.md R72, R73, R82, R87), and its bytes read back as the word (R51). -/

namespace Sys2Proof

/-! ## Little-endian fields -/

theorem le32_toNat (b0 b1 b2 b3 : Byte) :
    (le32 b0 b1 b2 b3).toNat = b0.toNat + 2 ^ 8 * b1.toNat + 2 ^ 16 * b2.toNat + 2 ^ 24 * b3.toNat := by
  simp only [le32, toNat_append_eq]
  omega

theorem wordBytes_le32 (b0 b1 b2 b3 : Byte) : wordBytes (le32 b0 b1 b2 b3) = [b0, b1, b2, b3] := by
  have hbyte : ∀ (k : Nat) (b : Byte), (le32 b0 b1 b2 b3).toNat / 2 ^ k % 2 ^ 8 = b.toNat →
      (le32 b0 b1 b2 b3).extractLsb' k 8 = b := fun k b h =>
    BitVec.eq_of_toNat_eq (by rw [toNat_extract_eq, h])
  have h0 := b0.isLt
  have h1 := b1.isLt
  have h2 := b2.isLt
  have h3 := b3.isLt
  rw [wordBytes, hbyte 0 b0, hbyte 8 b1, hbyte 16 b2, hbyte 24 b3] <;> rw [le32_toNat] <;> omega

/-- Settles O51: the word in the naturals, and its bytes read back. -/
theorem wireFieldsAreLittleEndian : Obligations.WireFieldsAreLittleEndian := fun b0 b1 b2 b3 =>
  ⟨le32_toNat b0 b1 b2 b3, wordBytes_le32 b0 b1 b2 b3⟩

/-- A word is the little-endian reading of its bytes. -/
theorem le32_wordBytes (w : Word) :
    le32 (w.extractLsb' 0 8) (w.extractLsb' 8 8) (w.extractLsb' 16 8) (w.extractLsb' 24 8) = w := by
  apply BitVec.eq_of_toNat_eq
  have hw := w.isLt
  rw [le32_toNat, toNat_extract_eq, toNat_extract_eq, toNat_extract_eq, toNat_extract_eq]
  omega

/-! ## Every word is put together from its fields -/

theorem exists_encodeHeader (h : BitVec 96) :
    ∃ word eventCount frameNumber, h = encodeHeader word eventCount frameNumber := by
  refine ⟨h.extractLsb' 0 32, h.extractLsb' 32 32, h.extractLsb' 64 32, BitVec.eq_of_toNat_eq ?_⟩
  have hh := h.isLt
  simp only [encodeHeader, toNat_append_eq, toNat_extract_eq]
  omega

theorem exists_encodeEvent (e : BitVec 64) :
    ∃ chipId address value pad delay, e = encodeEvent chipId address value pad delay := by
  refine ⟨e.extractLsb' 0 8, e.extractLsb' 8 8, e.extractLsb' 16 8, e.extractLsb' 24 8, e.extractLsb' 32 32,
    BitVec.eq_of_toNat_eq ?_⟩
  have he := e.isLt
  simp only [encodeEvent, toNat_append_eq, toNat_extract_eq]
  omega

theorem encodeHeader_toNat_mod (word eventCount frameNumber : Word) :
    (encodeHeader word eventCount frameNumber).toNat % 2 ^ 32 = word.toNat := by
  have h := congrArg BitVec.toNat (encodeHeader_word word eventCount frameNumber)
  rwa [toNat_extract_eq, Nat.pow_zero, Nat.div_one] at h

theorem encodeEvent_toNat_mod (c a v p : Byte) (d : Word) : (encodeEvent c a v p d).toNat % 2 ^ 8 = c.toNat := by
  have h := congrArg BitVec.toNat (encodeEvent_chipId c a v p d)
  rwa [toNat_extract_eq, Nat.pow_zero, Nat.div_one] at h

/-! ## Decoding an encoded word -/

theorem decodeHeader_encodeHeader (magic word eventCount frameNumber : Word) :
    decodeHeader magic (encodeHeader word eventCount frameNumber) =
      if word = magic then .hdr eventCount frameNumber else .slide word eventCount frameNumber := by
  rw [decodeHeader, classifyHeader, encodeHeader_word, encodeHeader_eventCount, encodeHeader_frameNumber]
  split <;> rfl

theorem decodeEvent_encodeEvent (skipping : Bool) (c a v p : Byte) (d : Word) :
    decodeEvent skipping (encodeEvent c a v p d) =
      if skipping then .evtSkip c a v p d else if c = 0 then .evtWrite a v p d else .evtUnsup c a v p d := by
  simp only [decodeEvent, classifyEvent, encodeEvent_chipId, encodeEvent_address, encodeEvent_value,
    encodeEvent_pad, encodeEvent_delay, Config.supportedChip]
  split
  · rfl
  · split <;> rfl

theorem decodeProducer_encodeCommand (op : BitVec 2) (a v : Byte) (d : Word) :
    decodeProducer (encodeCommand op a v d) =
      if op = 0b00#2 then .feed v else if op = 0b01#2 then .enq a v d else if op = 0b10#2 then .dreset
      else .qclear := by
  simp only [decodeProducer, encodeCommand_op, encodeCommand_a, encodeCommand_v, encodeCommand_d]

/-- Settles O48, row by row. -/
theorem decodeOfEncodeIsTheInstruction : Obligations.DecodeOfEncodeIsTheInstruction := by
  intro magic i p hwf henc
  refine ⟨?_, ?_⟩
  · cases i with
    | hdr eventCount frameNumber =>
      cases henc
      rw [decode, decodeHeader_encodeHeader, if_pos rfl]
    | slide word eventCount frameNumber =>
      cases henc
      rw [decode, decodeHeader_encodeHeader, if_neg (by simpa [Instr.wellFormed] using hwf)]
    | evtWrite address value pad delay =>
      cases henc
      rw [decode, decodeEvent_encodeEvent]
      rfl
    | evtUnsup chipId address value pad delay =>
      cases henc
      rw [decode, decodeEvent_encodeEvent, if_neg (by simp [Instr.readWhenSkipping]),
        if_neg (by simpa [Instr.wellFormed, Config.supportedChip] using hwf)]
    | evtSkip chipId address value pad delay =>
      cases henc
      rw [decode, decodeEvent_encodeEvent]
      rfl
    | feed b => cases henc; rw [decode, decodeProducer_encodeCommand]; rfl
    | enq a v d => cases henc; rw [decode, decodeProducer_encodeCommand]; rfl
    | dreset => cases henc; rw [decode, decodeProducer_encodeCommand]; rfl
    | qclear => cases henc; rw [decode, decodeProducer_encodeCommand]; rfl
    | apply n => cases henc; rfl
    | reset => cases henc; rfl
    | push ev => cases henc
    | frameReset => cases henc
  · cases i <;> cases henc <;> rfl

/-- Settles O49: a wire word is the encoding of its fields, and the row it decodes to keeps them all. The first four
clauses are the header's, the other five the event's. -/
theorem everyWireWordDecodesUniquely : Obligations.EveryWireWordDecodesUniquely := by
  intro magic skipping h e
  obtain ⟨word, eventCount, frameNumber, rfl⟩ := exists_encodeHeader h
  obtain ⟨c, a, v, p, d, rfl⟩ := exists_encodeEvent e
  rw [decodeHeader_encodeHeader, decodeEvent_encodeEvent, encodeHeader_toNat_mod, encodeEvent_toNat_mod]
  have hzero : c.toNat = 0 ↔ c = 0#8 := ⟨fun h => BitVec.eq_of_toNat_eq h, fun h => by rw [h]; rfl⟩
  refine and_assoc.1 (and_assoc.1 (and_assoc.1 ⟨?_, ?_⟩))
  · by_cases hm : word = magic
    · subst hm
      simp [Instr.wellFormed, encode]
    · simp [hm, Instr.wellFormed, encode, BitVec.toNat_inj]
  · cases skipping with
    | true => simp [Instr.wellFormed, encode]
    | false =>
      by_cases hc : c = 0#8
      · simp [hc, Instr.wellFormed, encode, Config.supportedChip]
      · simp [hc, hzero, Instr.wellFormed, encode, Config.supportedChip]

/-! ## Bytes of a word -/

theorem headerBytes_encodeHeader (word eventCount frameNumber : Word) :
    headerBytes (encodeHeader word eventCount frameNumber) =
      wordBytes word ++ wordBytes eventCount ++ wordBytes frameNumber := by
  rw [headerBytes, encodeHeader_word, encodeHeader_eventCount, encodeHeader_frameNumber]

theorem eventBytes_encodeEvent (c a v p : Byte) (d : Word) :
    eventBytes (encodeEvent c a v p d) = [c, a, v, p] ++ wordBytes d := by
  have hlow : (encodeEvent c a v p d).extractLsb' 0 32 = le32 c a v p := by
    apply BitVec.eq_of_toNat_eq
    have hd := d.isLt
    simp only [toNat_extract_eq, le32_toNat, encodeEvent, toNat_append_eq]
    omega
  rw [eventBytes, hlow, wordBytes_le32, encodeEvent_delay]

theorem headerWord_ofBytes (word eventCount frameNumber : Word) :
    headerWord #v[word.extractLsb' 0 8, word.extractLsb' 8 8, word.extractLsb' 16 8, word.extractLsb' 24 8,
        eventCount.extractLsb' 0 8, eventCount.extractLsb' 8 8, eventCount.extractLsb' 16 8,
        eventCount.extractLsb' 24 8, frameNumber.extractLsb' 0 8, frameNumber.extractLsb' 8 8,
        frameNumber.extractLsb' 16 8, frameNumber.extractLsb' 24 8] =
      encodeHeader word eventCount frameNumber := by
  rw [headerWord_eq]
  exact congr (congr (congrArg _ (le32_wordBytes word)) (le32_wordBytes eventCount)) (le32_wordBytes frameNumber)

theorem eventWord_ofBytes (c a v p : Byte) (d : Word) :
    eventWord #v[c, a, v, p, d.extractLsb' 0 8, d.extractLsb' 8 8, d.extractLsb' 16 8, d.extractLsb' 24 8] =
      encodeEvent c a v p d := by
  rw [eventWord_eq]
  exact congrArg (encodeEvent c a v p) (le32_wordBytes d)

/-- Settles O50: the bytes of a word are put together again, and only the two full lengths are examined. -/
theorem wireBytesDecodeAsTheWord : Obligations.WireBytesDecodeAsTheWord := by
  intro magic skipping h e bytes
  obtain ⟨word, eventCount, frameNumber, rfl⟩ := exists_encodeHeader h
  obtain ⟨c, a, v, p, d, rfl⟩ := exists_encodeEvent e
  refine ⟨?_, ?_, fun hlen => ?_, fun hlen => ?_⟩
  · rw [headerBytes_encodeHeader, ← headerWord_ofBytes]
    rfl
  · rw [eventBytes_encodeEvent, ← eventWord_ofBytes]
    rfl
  · unfold decodeBytes
    split <;> simp_all
  · unfold decodeBytes
    split <;> simp_all

/-- Settles O52: the fixed words, by evaluation. -/
theorem specWordsDecode : Obligations.SpecWordsDecode := by
  unfold Obligations.SpecWordsDecode
  decide

namespace Machine

/-! ## The buffers as the decoder reads them -/

theorem decodeBytes_hdrBuf (magic : Word) (skipping : Bool) (v : Vector Byte 12) :
    decodeBytes magic .seekingHeader skipping v.toList = .ok (decodeHeader magic (headerWord v)) := by
  have hv : v = #v[v[0], v[1], v[2], v[3], v[4], v[5], v[6], v[7], v[8], v[9], v[10], v[11]] := by
    ext i hi
    interval_cases i <;> rfl
  rw [hv]
  rfl

theorem decodeBytes_evtBuf (magic : Word) (skipping : Bool) (v : Vector Byte 8) :
    decodeBytes magic .readingEvents skipping v.toList = .ok (decodeEvent skipping (eventWord v)) := by
  have hv : v = #v[v[0], v[1], v[2], v[3], v[4], v[5], v[6], v[7]] := by
    ext i hi
    interval_cases i <;> rfl
  rw [hv]
  rfl

/-- Settles O46: the step is the FEED of the byte, and a FEED that fills a buffer runs the row the buffer decodes to. -/
theorem stepRunsTheCompletedWireRow : Obligations.StepRunsTheCompletedWireRow := by
  intro s c rest b i hports hc u
  have hstep : step s = execFeed b { s with ports := rest } := by
    rw [step, hports]
    change exec (decodeProducer c) _ = _
    rw [hc]
    rfl
  rw [hstep]
  refine ⟨fun hs hf h => ?_, fun hs hf h => ?_⟩
  · have hu : u = { s with ports := rest, dec := s.dec.takeHeaderByte b } := by
      simp only [u, State.takeByte, hs]
    rw [decodeBytes_hdrBuf] at h
    cases h
    rw [execFeed_header_full (s := { s with ports := rest }) hs hf, evaluateWindow_eq_exec_decodeHeader, hu]
  · have hu : u = { s with ports := rest, dec := s.dec.takeEventByte b } := by
      simp only [u, State.takeByte, hs]
    rw [decodeBytes_evtBuf] at h
    cases h
    rw [execFeed_event_full (s := { s with ports := rest }) hs hf, consumeEvent_eq_exec_decodeEvent, hu]
    rfl

end Machine

end Sys2Proof
end

section
/-! SUPPORT. Runs of FEEDs, and the header search: the decoder seeks with the last bytes of the stream in its window
until one begins with the magic word (spec/40_decoder.md R101 to R104). -/

namespace Sys2Proof.Machine

/-! ## Runs of FEEDs -/

/-- FEEDS of the bytes leads from one state to another, and passes these events to PUSH. -/
inductive FeedRun : List Byte → State → State → List RegisterWriteEvent → Prop where
  | nil (s : State) : FeedRun [] s s []
  | cons {b : Byte} {bytes : List Byte} {s u t : State} {evs evs' : List RegisterWriteEvent}
      (first : FeedStep b s u evs) (rest : FeedRun bytes u t evs') : FeedRun (b :: bytes) s t (evs ++ evs')

namespace FeedRun

variable {bytes bytes' : List Byte} {s t u : State} {evs evs' : List RegisterWriteEvent}

theorem feeds (h : FeedRun bytes s t evs) : feeds bytes s = .next t := by
  induction h with
  | nil s => rfl
  | cons first rest ih => rw [first.feeds_cons, ih]

theorem pushedByAll (h : FeedRun bytes s t evs) : pushedByAll (bytes.map .feed) s = evs := by
  induction h with
  | nil s => rfl
  | cons first rest ih => rw [first.pushedByAll_cons, ih]

theorem single {b : Byte} (h : FeedStep b s t evs) : FeedRun [b] s t evs := by
  simpa using cons h (nil t)

theorem append (h : FeedRun bytes s u evs) (h' : FeedRun bytes' u t evs') :
    FeedRun (bytes ++ bytes') s t (evs ++ evs') := by
  induction h with
  | nil s => exact h'
  | cons first rest ih => rw [List.append_assoc]; exact cons first (ih h')

end FeedRun

/-! ## A decoder that seeks, by the bytes in its window -/

/-- The seeking decoder that holds the bytes `w`. -/
def Decoder.seekingWith (w : List Byte) : Decoder :=
  { Decoder.cleared with hdrBuf := Vector.ofFn fun i => w.getD i.val 0, hdrFill := BitVec.ofNat 4 w.length }

namespace Decoder

theorem seekingWith_nil : seekingWith [] = cleared := by decide

theorem seekingWith_hdrBuf (w : List Byte) {i : Nat} (hi : i < 12) :
    (seekingWith w).hdrBuf[i] = w.getD i 0 := Vector.getElem_ofFn ..

theorem seekingWith_hdrFill {w : List Byte} (hw : w.length ≤ 11) : (seekingWith w).hdrFill.toNat = w.length := by
  rw [seekingWith, BitVec.toNat_ofNat]
  omega

/-- One byte more at the end of those held. -/
theorem getD_append_single (w : List Byte) (b : Byte) (i : Nat) :
    (w ++ [b]).getD i 0 = if i = w.length then b else w.getD i 0 := by
  obtain h | rfl | h := Nat.lt_trichotomy i w.length
  · rw [if_neg h.ne, List.getD_append _ _ _ _ h]
  · rw [if_pos rfl, List.getD_append_right _ _ _ _ le_rfl, Nat.sub_self]
    rfl
  · rw [if_neg h.ne', List.getD_eq_default _ _ h.le, List.getD_eq_default _ _ (by simp; omega)]

theorem takeHeaderByte_seekingWith {w : List Byte} (hw : w.length ≤ 11) (b : Byte) :
    (seekingWith w).takeHeaderByte b = seekingWith (w ++ [b]) := by
  have hbuf : ((seekingWith w).takeHeaderByte b).hdrBuf = (seekingWith (w ++ [b])).hdrBuf := by
    ext1 i hi
    have htake := takeHeaderByte_buf (seekingWith w) b ⟨i, hi⟩
    rw [seekingWith_hdrFill hw] at htake
    rw [seekingWith_hdrBuf _ hi, getD_append_single, ← seekingWith_hdrBuf w hi]
    exact htake
  have hfill : ((seekingWith w).takeHeaderByte b).hdrFill = (seekingWith (w ++ [b])).hdrFill := by
    simp [takeHeaderByte, seekingWith, BitVec.ofNat_add]
  calc (seekingWith w).takeHeaderByte b
      = { seekingWith (w ++ [b]) with
          hdrBuf := ((seekingWith w).takeHeaderByte b).hdrBuf
          hdrFill := ((seekingWith w).takeHeaderByte b).hdrFill } := rfl
    _ = seekingWith (w ++ [b]) := by rw [hbuf, hfill]

/-- Byte `i` of the window after a slide is byte `i + 1` before it. -/
theorem slide_hdrBuf (d : Decoder) {i : Nat} (hi : i < 11) : d.slide.hdrBuf[i] = d.hdrBuf[i + 1] := by
  interval_cases i <;> rfl

theorem slide_seekingWith {x : Byte} {w : List Byte} (hw : w.length = 11) :
    (seekingWith (x :: w)).slide = seekingWith w := by
  have hbuf : (seekingWith (x :: w)).slide.hdrBuf = (seekingWith w).hdrBuf := by
    ext1 i hi
    by_cases h : i < 11
    · rw [slide_hdrBuf _ h, seekingWith_hdrBuf _ (by omega), seekingWith_hdrBuf _ hi, List.getD_cons_succ]
    · obtain rfl : i = 11 := by omega
      rw [seekingWith_hdrBuf _ hi, List.getD_eq_default _ _ hw.le]
      rfl
  have hfill : (seekingWith w).hdrFill = 11 := by rw [seekingWith, hw]; rfl
  calc (seekingWith (x :: w)).slide
      = { seekingWith w with hdrBuf := (seekingWith (x :: w)).slide.hdrBuf, hdrFill := 11 } := rfl
    _ = seekingWith w := by rw [hbuf, ← hfill]

theorem firstWord_seekingWith (b0 b1 b2 b3 : Byte) (w : List Byte) :
    (seekingWith (b0 :: b1 :: b2 :: b3 :: w)).firstWord = le32 b0 b1 b2 b3 := by
  simp only [firstWord, seekingWith_hdrBuf]
  rfl

/-- The decoder of a frame just accepted (R102, R104). -/
def inFrame (eventCount frameNumber : Word) : Decoder :=
  { Decoder.cleared with
    stage := .readingEvents
    expectedEvents := eventCount
    frameNumber := frameNumber
    skippingFrame := decide (eventCount = 0) }

theorem accept_eq_inFrame (d : Decoder) (eventCount frameNumber : Word) :
    d.accept eventCount frameNumber = inFrame eventCount frameNumber := rfl

end Decoder

/-! ## The search -/

/-- No window that begins at one of the first `k` places of the stream begins with the magic word. -/
def NoMagicBefore (magic : Word) (stream : List Byte) (k : Nat) : Prop :=
  ∀ j < k, ∀ b0 b1 b2 b3 rest, stream.drop j = b0 :: b1 :: b2 :: b3 :: rest → le32 b0 b1 b2 b3 ≠ magic

/-- A window that is not full takes the byte. -/
theorem feedStep_fill {s : State} {w : List Byte} (hdec : s.dec = Decoder.seekingWith w) (hw : w.length < 11)
    (b : Byte) : FeedStep b s { s with dec := Decoder.seekingWith (w ++ [b]) } [] := by
  rw [← Decoder.takeHeaderByte_seekingWith hw.le, ← hdec]
  refine .headerByte (by rw [hdec]; rfl) fun h => ?_
  have hfill := Decoder.seekingWith_hdrFill hw.le
  rw [← hdec, h] at hfill
  exact absurd hfill hw.ne'

/-- A full window that does not begin with the magic word takes the byte and loses its first. -/
theorem feedStep_slide {s : State} {b0 b1 b2 b3 : Byte} {w : List Byte}
    (hdec : s.dec = Decoder.seekingWith (b0 :: b1 :: b2 :: b3 :: w)) (hw : w.length = 7)
    (hne : le32 b0 b1 b2 b3 ≠ s.magic) (b : Byte) :
    FeedStep b s { s with dec := Decoder.seekingWith (b1 :: b2 :: b3 :: w ++ [b]) } [] := by
  have hslide : Decoder.seekingWith (b1 :: b2 :: b3 :: w ++ [b]) = (s.dec.takeHeaderByte b).slide := by
    rw [hdec, Decoder.takeHeaderByte_seekingWith (by simp [hw])]
    exact (Decoder.slide_seekingWith (x := b0) (by simp [hw])).symm
  rw [hslide]
  refine .slide (by rw [hdec]; rfl) (by rw [hdec, Decoder.seekingWith]; simp [hw]) ?_
  rwa [hdec, Decoder.firstWord_seekingWith]

theorem exists_of_length_eq_eleven {w : List Byte} (h : w.length = 11) :
    ∃ b0 b1 b2 b3 w', w = b0 :: b1 :: b2 :: b3 :: w' ∧ w'.length = 7 := by
  match w, h with
  | b0 :: b1 :: b2 :: b3 :: w', h => exact ⟨b0, b1, b2, b3, w', rfl, by simpa using h⟩

/-- The last eleven bytes of a stream of at least twelve do not hold its first. -/
theorem drop_length_sub_cons (x : Byte) {stream : List Byte} (h : 11 ≤ stream.length) :
    (x :: stream).drop ((x :: stream).length - 11) = stream.drop (stream.length - 11) := by
  rw [List.length_cons, Nat.sub_add_comm h, List.drop_succ_cons]

/-- While no window begins with the magic word, the decoder seeks on with the last eleven bytes. -/
theorem feedRun_seeking {bytes w : List Byte} {s : State} (hdec : s.dec = Decoder.seekingWith w)
    (hw : w.length ≤ 11) (hno : NoMagicBefore s.magic (w ++ bytes) ((w ++ bytes).length - 11)) :
    FeedRun bytes s
      { s with dec := Decoder.seekingWith ((w ++ bytes).drop ((w ++ bytes).length - 11)) } [] := by
  induction bytes generalizing w s with
  | nil =>
    rw [List.append_nil, Nat.sub_eq_zero_of_le hw, List.drop_zero, ← hdec]
    exact .nil s
  | cons b bytes ih =>
    obtain hlt | heq := Nat.lt_or_eq_of_le hw
    · have happend : w ++ b :: bytes = w ++ [b] ++ bytes := by simp
      rw [happend] at hno ⊢
      exact .cons (feedStep_fill hdec hlt b) (ih rfl (by simpa using hlt) hno)
    · obtain ⟨b0, b1, b2, b3, w', rfl, hw'⟩ := exists_of_length_eq_eleven heq
      have happend : b0 :: b1 :: b2 :: b3 :: w' ++ b :: bytes = b0 :: (b1 :: b2 :: b3 :: w' ++ [b] ++ bytes) := by simp
      have hlong : 11 ≤ (b1 :: b2 :: b3 :: w' ++ [b] ++ bytes).length := by simp; omega
      rw [happend] at hno ⊢
      rw [drop_length_sub_cons b0 hlong]
      rw [List.length_cons, Nat.sub_add_comm hlong] at hno
      have hstep := feedStep_slide hdec hw' (hno 0 (Nat.succ_pos _) b0 b1 b2 b3 (w' ++ [b] ++ bytes) rfl) b
      exact .cons hstep (ih rfl (by simp; omega) fun j hj c0 c1 c2 c3 rest h =>
        hno (j + 1) (Nat.succ_lt_succ hj) c0 c1 c2 c3 rest h)

/-- The header's last byte, with the eleven before it in the window. -/
theorem feedStep_headerEnd {s : State} {eventCount frameNumber : Word}
    (hdec : s.dec = Decoder.seekingWith
      (wordBytes s.magic ++ wordBytes eventCount ++ (wordBytes frameNumber).take 3)) :
    FeedStep (frameNumber.extractLsb' 24 8) s
      { s with
        dec := Decoder.inFrame eventCount frameNumber
        stats := { s.stats with framesDecoded := s.stats.framesDecoded + 1 } } [] := by
  have hbuf : ∀ {i : Nat} (hi : i < 12), s.dec.hdrBuf[i] =
      (wordBytes s.magic ++ wordBytes eventCount ++ (wordBytes frameNumber).take 3).getD i 0 := fun hi => by
    rw [hdec, Decoder.seekingWith_hdrBuf _ hi]
  have hmagic : s.dec.firstWord = s.magic := by
    simp only [Decoder.firstWord, hbuf]
    exact le32_wordBytes s.magic
  have h := FeedStep.accept (b := frameNumber.extractLsb' 24 8) (by rw [hdec]; rfl) (by rw [hdec]; rfl) hmagic
  simp only [hbuf] at h
  have hframe : Decoder.inFrame eventCount frameNumber = s.dec.accept
      (le32 (eventCount.extractLsb' 0 8) (eventCount.extractLsb' 8 8) (eventCount.extractLsb' 16 8)
        (eventCount.extractLsb' 24 8))
      (le32 (frameNumber.extractLsb' 0 8) (frameNumber.extractLsb' 8 8) (frameNumber.extractLsb' 16 8)
        (frameNumber.extractLsb' 24 8)) := by
    rw [le32_wordBytes, le32_wordBytes, Decoder.accept_eq_inFrame]
  rw [hframe]
  exact h

/-- The first eleven bytes of a header. -/
theorem take_headerBytes (magic eventCount frameNumber : Word) :
    (headerBytes (encodeHeader magic eventCount frameNumber)).take 11 =
      wordBytes magic ++ wordBytes eventCount ++ (wordBytes frameNumber).take 3 := by
  rw [headerBytes_encodeHeader]
  rfl

theorem headerBytes_eq_take_append (magic eventCount frameNumber : Word) :
    headerBytes (encodeHeader magic eventCount frameNumber) =
      (headerBytes (encodeHeader magic eventCount frameNumber)).take 11 ++ [frameNumber.extractLsb' 24 8] := by
  rw [headerBytes_encodeHeader]
  rfl

/-- Eleven bytes of the header after the garbage, the decoder holds them and still seeks. -/
theorem feedRun_garbage {s : State} {garbage : List Byte} {eventCount frameNumber : Word}
    (hdec : s.dec = Decoder.cleared)
    (hno : NoMagicBefore s.magic (garbage ++ headerBytes (encodeHeader s.magic eventCount frameNumber))
      garbage.length) :
    FeedRun (garbage ++ (headerBytes (encodeHeader s.magic eventCount frameNumber)).take 11) s
      { s with
        dec := Decoder.seekingWith ((headerBytes (encodeHeader s.magic eventCount frameNumber)).take 11) } [] := by
  have hlen : (garbage ++ (headerBytes (encodeHeader s.magic eventCount frameNumber)).take 11).length - 11 =
      garbage.length := by
    rw [take_headerBytes]
    simp [wordBytes]
  have hrun := feedRun_seeking (w := [])
    (bytes := garbage ++ (headerBytes (encodeHeader s.magic eventCount frameNumber)).take 11)
    (hdec.trans Decoder.seekingWith_nil.symm) (by simp) ?_
  · rwa [List.nil_append, hlen, List.drop_left] at hrun
  · rw [List.nil_append, hlen]
    intro j hj b0 b1 b2 b3 rest h
    refine hno j hj b0 b1 b2 b3 (rest ++ [frameNumber.extractLsb' 24 8]) ?_
    rw [headerBytes_eq_take_append, ← List.append_assoc,
      List.drop_append_of_le_length (by rw [List.length_append]; omega), h]
    rfl

/-- Garbage and a header: the header is accepted, wherever it begins. -/
theorem feedRun_header {s : State} {garbage : List Byte} {eventCount frameNumber : Word}
    (hdec : s.dec = Decoder.cleared)
    (hno : NoMagicBefore s.magic (garbage ++ headerBytes (encodeHeader s.magic eventCount frameNumber))
      garbage.length) :
    FeedRun (garbage ++ headerBytes (encodeHeader s.magic eventCount frameNumber)) s
      { s with
        dec := Decoder.inFrame eventCount frameNumber
        stats := { s.stats with framesDecoded := s.stats.framesDecoded + 1 } } [] := by
  have hlast := feedStep_headerEnd (eventCount := eventCount) (frameNumber := frameNumber)
    (s := { s with
      dec := Decoder.seekingWith ((headerBytes (encodeHeader s.magic eventCount frameNumber)).take 11) })
    (congrArg Decoder.seekingWith (take_headerBytes ..))
  rw [headerBytes_eq_take_append, ← List.append_assoc]
  exact (feedRun_garbage hdec hno).append (.single hlast)

/-! ## One window -/

/-- What the byte that completes a window makes FEED absorb. -/
theorem absorbedBy_window {s : State} (hs : s.dec.stage = .seekingHeader) (hf : s.dec.hdrFill = 11) (b : Byte) :
    absorbedBy (.feed b) s =
      if s.dec.firstWord = s.magic then
        absorbedAtAccept (le32 s.dec.hdrBuf[4] s.dec.hdrBuf[5] s.dec.hdrBuf[6] s.dec.hdrBuf[7])
      else [.magicMismatch] := by
  change absorbedByFeed b s = _
  rw [absorbedByFeed_header_full hs hf, absorbedByWindow_eq]
  simp only [Decoder.takeHeaderByte_old hf, Nat.reduceLT]
  rfl

/-- Settles O9: the accepting case of FEED. -/
theorem magicWindowIsAccepted : Obligations.MagicWindowIsAccepted := by
  intro b s hs hf hm
  exact ⟨(FeedStep.accept (b := b) hs hf hm).exec, (absorbedBy_window hs hf b).trans (if_pos hm)⟩

/-- Settles O10: the sliding case of FEED; and the search, which holds the last eleven bytes until the header's last. -/
theorem slidingWindowResynchronises : Obligations.SlidingWindowResynchronises := by
  refine ⟨fun b s hs hf hm => ?_, ?_⟩
  · refine ⟨(absorbedBy_window hs hf b).trans (if_neg hm), _, (FeedStep.slide (b := b) hs hf hm).exec, rfl,
      fun i => ?_, ?_, rfl, rfl⟩
    · rw [Decoder.slide_hdrBuf _ (by omega), Decoder.takeHeaderByte_old hf b (by omega)]
    · rw [Decoder.slide_hdrBuf _ (by omega), Decoder.takeHeaderByte_new hf]
  · intro s garbage eventCount frameNumber hdec stream hno
    have hseek := (feedRun_garbage hdec hno).feeds
    rw [← List.take_length_add_append] at hseek
    exact ⟨⟨_, hseek, rfl, rfl, rfl⟩, (feedRun_header hdec hno).feeds⟩

end Sys2Proof.Machine
end

section
/-! SUPPORT. Events and frames: what the byte that completes an event does, that a frame takes its declared bytes and no
more, skipping frames, whole frames, and that decoding depends on the bytes alone (spec/40_decoder.md R105 to R114). -/

namespace Sys2Proof.Machine

/-! ## The byte that completes an event -/

/-- Whatever the event, the decoder counts it, and skips on from an event of another chip (R107, R110). -/
theorem FeedStep.dec_of_full {b : Byte} {s t : State} {evs : List RegisterWriteEvent} (h : FeedStep b s t evs)
    (hs : s.dec.stage = .readingEvents) (hf : s.dec.evtFill = 7) :
    t.dec = s.dec.eventEnd (s.dec.skippingFrame || (s.dec.evtBuf[0] != 0)) := by
  cases h with
  | headerByte hs' | accept hs' | slide hs' => rw [hs] at hs'; cases hs'
  | eventByte _ hf' => exact absurd hf hf'
  | skip _ _ hk => rw [hk, Bool.true_or]
  | write _ _ hk hc => rw [hk, hc]; rfl
  | unsupported _ _ hk hc => rw [hk, bne_iff_ne.2 hc]; rfl

/-- Settles O14: the decoder after the byte is that of the event's end. -/
theorem everyEventIsCountedAndChecked : Obligations.EveryEventIsCountedAndChecked := by
  intro b s hs hf
  obtain ⟨t, evs, h⟩ := FeedStep.total b s
  refine ⟨t, h.exec, fun hlast => ?_, fun hmore => ?_⟩
  · rw [h.dec_of_full hs hf, Decoder.eventEnd_of_last hlast]
  · rw [h.dec_of_full hs hf, Decoder.eventEnd_of_more hmore]
    rfl

/-- What the byte that completes an event makes FEED absorb. -/
theorem absorbedBy_event {s : State} (hs : s.dec.stage = .readingEvents) (hf : s.dec.evtFill = 7) (b : Byte) :
    absorbedBy (.feed b) s =
      if s.dec.skippingFrame = true then absorbedByCheck s.dec
      else if s.dec.evtBuf[0] = 0 then absorbedByPush s.queue ++ absorbedByCheck s.dec
      else .unsupportedChip :: absorbedByCheck s.dec := by
  change absorbedByFeed b s = _
  rw [absorbedByFeed_event_full hs hf, absorbedByEvent_eq]
  simp only [Decoder.takeEventByte_old hf, Nat.reduceLT]
  rfl

/-- Settles O13: the forwarding case of FEED. -/
theorem supportedEventIsForwarded : Obligations.SupportedEventIsForwarded := by
  intro b s hs hf hk hc
  have h := FeedStep.write (b := b) hs hf hk hc _ rfl
  refine ⟨_, eventOf_register_toNat _ _ _, rfl, rfl, h.pushedBy, fun hfull => ?_, _, _, h.exec, rfl, rfl, rfl, rfl⟩
  rw [absorbedBy_event hs hf, if_neg (by simp [hk]), if_pos hc, absorbedByPush_of_full hfull]
  rfl

/-! ## Where a frame is -/

/-- A decoder inside a frame that is not yet over (R37). -/
structure Decoder.MidFrame (d : Decoder) : Prop where
  stage : d.stage = .readingEvents
  evtFillLe : d.evtFill.toNat ≤ 7
  eventsReadLt : d.eventsRead.toNat < max d.expectedEvents.toNat 1

/-- How many bytes of the frame's events have been taken. -/
def Decoder.position (d : Decoder) : Nat := 8 * d.eventsRead.toNat + d.evtFill.toNat

namespace Decoder

theorem MidFrame.bytesLeft_add_position {d : Decoder} (h : d.MidFrame) :
    d.bytesLeft + d.position = 8 * max d.expectedEvents.toNat 1 := by
  have := h.evtFillLe
  have := h.eventsReadLt
  unfold bytesLeft position
  omega

theorem MidFrame.bytesLeft_pos {d : Decoder} (h : d.MidFrame) : 0 < d.bytesLeft := by
  have := h.evtFillLe
  have := h.eventsReadLt
  unfold bytesLeft
  omega

theorem Inv.midFrame {d : Decoder} (hd : d.Inv) (hs : d.stage = .readingEvents) : d.MidFrame := by
  refine ⟨hs, hd.evtFillLe, ?_⟩
  obtain hlt | ⟨-, hread, -⟩ := (hd.reading hs).2
  · exact lt_max_of_lt_left hlt
  · rw [hread]
    exact lt_max_of_lt_right Nat.one_pos

theorem inFrame_midFrame (eventCount frameNumber : Word) : (inFrame eventCount frameNumber).MidFrame :=
  ⟨rfl, Nat.zero_le 7, lt_max_of_lt_right Nat.one_pos⟩

end Decoder

/-- What one byte of a frame leaves of the decoder: the frame goes on, one byte further, or that was its last byte. -/
inductive Decoder.FrameStep (d d' : Decoder) : Prop where
  | goesOn (left : 1 < d.bytesLeft) (mid : d'.MidFrame) (position : d'.position = d.position + 1)
      (frame : d' = { d with
        evtBuf := d'.evtBuf
        evtFill := d'.evtFill
        eventsRead := d'.eventsRead
        skippingFrame := d'.skippingFrame })
      (skipping : d.skippingFrame = true → d'.skippingFrame = true)
  | ends (left : d.bytesLeft = 1) (cleared : d' = Decoder.cleared)

theorem Decoder.MidFrame.takeEventByte {d : Decoder} (h : d.MidFrame) (hf : d.evtFill ≠ 7) (b : Byte) :
    d.FrameStep (d.takeEventByte b) := by
  have hle := h.evtFillLe
  have hread := h.eventsReadLt
  have hne : d.evtFill.toNat ≠ 7 := fun e => hf (BitVec.eq_of_toNat_eq e)
  have hfill := takeEventByte_fill hle b
  refine .goesOn ?_ ⟨h.stage, by omega, hread⟩ (by rw [position, position, hfill]; rfl) rfl id
  unfold bytesLeft
  omega

theorem Decoder.MidFrame.eventEnd {d : Decoder} (h : d.MidFrame) (hf : d.evtFill = 7) {skipping : Bool}
    (hk : d.skippingFrame = true → skipping = true) : d.FrameStep (d.eventEnd skipping) := by
  have hread := h.eventsReadLt
  have hfill : d.evtFill.toNat = 7 := by rw [hf]; rfl
  have hcount : (d.eventsRead + 1).toNat = d.eventsRead.toNat + 1 := by bv_omega
  by_cases hlast : d.expectedEvents.toNat ≤ (d.eventsRead + 1).toNat
  · refine .ends ?_ (eventEnd_of_last hlast skipping)
    unfold bytesLeft
    omega
  · have hmore := Nat.not_le.1 hlast
    rw [eventEnd_of_more hmore]
    refine .goesOn ?_ ⟨h.stage, Nat.zero_le 7, lt_max_of_lt_left hmore⟩ ?_ rfl hk
    · unfold bytesLeft
      omega
    · unfold position
      change 8 * (d.eventsRead + 1).toNat + 0 = _
      omega

/-- A byte of a frame, whatever it is. -/
theorem FeedStep.frameStep {b : Byte} {s t : State} {evs : List RegisterWriteEvent} (h : FeedStep b s t evs)
    (hd : s.dec.MidFrame) : s.dec.FrameStep t.dec := by
  by_cases hf : s.dec.evtFill = 7
  · rw [h.dec_of_full hd.stage hf]
    exact hd.eventEnd hf fun hk => by rw [hk, Bool.true_or]
  · have hbyte := (FeedStep.eventByte (b := b) hd.stage hf).exec
    rw [h.exec] at hbyte
    cases hbyte
    exact hd.takeEventByte hf b

/-- In a skipping frame a byte touches the decoder only. -/
theorem FeedStep.of_skipping {b : Byte} {s t : State} {evs : List RegisterWriteEvent} (h : FeedStep b s t evs)
    (hs : s.dec.stage = .readingEvents) (hk : s.dec.skippingFrame = true) : evs = [] ∧ t = { s with dec := t.dec } := by
  cases h with
  | accept hs' => rw [hs] at hs'; cases hs'
  | headerByte | slide | eventByte | skip => exact ⟨rfl, rfl⟩
  | write _ _ hk' | unsupported _ _ hk' => rw [hk] at hk'; cases hk'

/-! ## A frame takes its declared bytes -/

/-- From inside a frame, whatever the bytes are. -/
theorem feeds_midFrame {bytes : List Byte} {s : State} (hd : s.dec.MidFrame) (hle : bytes.length ≤ s.dec.bytesLeft) :
    ∃ t, feeds bytes s = .next t ∧
      (bytes.length < s.dec.bytesLeft →
        t.dec.stage = .readingEvents ∧ t.dec.expectedEvents = s.dec.expectedEvents ∧
          t.dec.bytesLeft = s.dec.bytesLeft - bytes.length) ∧
      (bytes.length = s.dec.bytesLeft → t.dec = Decoder.cleared) := by
  induction bytes generalizing s with
  | nil =>
    have hpos := hd.bytesLeft_pos
    exact ⟨s, rfl, fun _ => ⟨hd.stage, rfl, rfl⟩, fun h => absurd h hpos.ne⟩
  | cons b bytes ih =>
    rw [List.length_cons] at hle ⊢
    obtain ⟨u, evs, hu⟩ := FeedStep.total b s
    rw [hu.feeds_cons]
    cases hu.frameStep hd with
    | goesOn left mid position frame skipping =>
      have hexpected : u.dec.expectedEvents = s.dec.expectedEvents := by rw [frame]
      have hleft : u.dec.bytesLeft + 1 = s.dec.bytesLeft := by
        have hu := mid.bytesLeft_add_position
        have hs := hd.bytesLeft_add_position
        rw [hexpected] at hu
        omega
      obtain ⟨t, ht, hgoing, hends⟩ := ih mid (by omega)
      refine ⟨t, ht, fun hlt => ?_, fun heq => hends (by omega)⟩
      obtain ⟨hstage, hexp, hbytes⟩ := hgoing (by omega)
      exact ⟨hstage, hexp.trans hexpected, by omega⟩
    | ends left cleared =>
      obtain rfl : bytes = [] := List.length_eq_zero_iff.1 (by omega)
      exact ⟨u, rfl, fun h => by rw [left] at h; exact absurd h (lt_irrefl 1), fun _ => cleared⟩

/-- Settles O15: a decoder that meets the invariant and reads events is inside a frame not yet over. -/
theorem frameTakesItsDeclaredBytes : Obligations.FrameTakesItsDeclaredBytes :=
  fun _ _ hinv hs hle => feeds_midFrame (hinv.midFrame hs) hle

/-- A run of bytes inside a skipping frame: nothing is pushed, only the decoder changes, and the frame goes on to its
last byte. -/
theorem feedRun_skipping {bytes : List Byte} {s : State} (hd : s.dec.MidFrame) (hk : s.dec.skippingFrame = true)
    (hle : bytes.length ≤ s.dec.bytesLeft) :
    ∃ t, FeedRun bytes s t [] ∧ t = { s with dec := t.dec } ∧
      (bytes.length < s.dec.bytesLeft →
        t.dec = { s.dec with evtBuf := t.dec.evtBuf, evtFill := t.dec.evtFill, eventsRead := t.dec.eventsRead } ∧
          t.dec.eventsRead.toNat = s.dec.eventsRead.toNat + (s.dec.evtFill.toNat + bytes.length) / 8) ∧
      (bytes.length = s.dec.bytesLeft → t.dec = Decoder.cleared) := by
  induction bytes generalizing s with
  | nil =>
    have hpos := hd.bytesLeft_pos
    have hfill := hd.evtFillLe
    exact ⟨s, .nil s, rfl, fun _ => ⟨rfl, by rw [List.length_nil]; omega⟩, fun h => absurd h hpos.ne⟩
  | cons b bytes ih =>
    rw [List.length_cons] at hle ⊢
    obtain ⟨u, evs, hu⟩ := FeedStep.total b s
    obtain ⟨rfl, hframe⟩ := hu.of_skipping hd.stage hk
    cases hu.frameStep hd with
    | goesOn left mid position frame skipping =>
      have hleft : u.dec.bytesLeft + 1 = s.dec.bytesLeft := by
        have hu := mid.bytesLeft_add_position
        have hs := hd.bytesLeft_add_position
        rw [show u.dec.expectedEvents = s.dec.expectedEvents by rw [frame]] at hu
        omega
      obtain ⟨t, ht, hframe', hgoing, hends⟩ := ih mid (skipping hk) (by omega)
      refine ⟨t, .cons hu ht, by rw [hframe', hframe], fun hlt => ?_, fun heq => hends (by omega)⟩
      obtain ⟨hdec, hread⟩ := hgoing (by omega)
      refine ⟨?_, ?_⟩
      · rw [skipping hk, ← hk] at frame
        rw [hdec, frame]
      · unfold Decoder.position at position
        omega
    | ends left cleared =>
      obtain rfl : bytes = [] := List.length_eq_zero_iff.1 (by omega)
      exact ⟨u, .single hu, hframe, fun h => by rw [left] at h; exact absurd h (lt_irrefl 1), fun _ => cleared⟩

/-- Settles O12: the run of bytes inside a skipping frame. -/
theorem skippingFrameForwardsNothing : Obligations.SkippingFrameForwardsNothing := by
  intro s bytes hs hk hfill hread hle
  obtain ⟨t, hrun, hframe, hgoing, hends⟩ := feedRun_skipping ⟨hs, hfill, hread⟩ hk hle
  refine ⟨hrun.pushedByAll, t, hrun.feeds, hframe, hgoing, fun h => ?_⟩
  rw [hends h]
  exact ⟨rfl, rfl⟩

/-- Settles O11: the marking case of FEED, and the rest of the frame as a run of bytes inside a skipping frame. -/
theorem unsupportedChipMarksTheFrame : Obligations.UnsupportedChipMarksTheFrame := by
  intro b s hs hf hk hc
  have h := FeedStep.unsupported (b := b) hs hf hk hc
  refine ⟨?_, h.pushedBy, _, h.exec, rfl, rfl, rfl, fun hlast => ?_, fun hmore => ?_⟩
  · rw [absorbedBy_event hs hf, if_neg (by simp [hk]), if_neg hc]
    rfl
  · rw [Decoder.eventEnd_of_last hlast]
    exact ⟨rfl, rfl⟩
  · rw [Decoder.eventEnd_of_more hmore]
    refine ⟨rfl, fun bytes hle => ?_⟩
    obtain ⟨w, hrun, hframe, hgoing, hends⟩ := feedRun_skipping
      (s := { s with
        dec := { s.dec with
          evtBuf := Decoder.cleared.evtBuf, evtFill := 0, eventsRead := s.dec.eventsRead + 1, skippingFrame := true }
        stats := { s.stats with unsupportedChip := s.stats.unsupportedChip + 1 } })
      ⟨hs, Nat.zero_le 7, lt_max_of_lt_left hmore⟩ rfl hle
    refine ⟨w, hrun.feeds, by rw [hframe], by rw [hframe], fun hlt => ?_, fun heq => ?_⟩
    · rw [(hgoing hlt).1]
      exact ⟨hs, rfl⟩
    · rw [hends heq]
      exact ⟨rfl, rfl⟩

/-- A header from a cleared decoder. -/
theorem feedRun_headerBytes {s : State} (hdec : s.dec = Decoder.cleared) (eventCount frameNumber : Word) :
    FeedRun (headerBytes (encodeHeader s.magic eventCount frameNumber)) s
      { s with
        dec := Decoder.inFrame eventCount frameNumber
        stats := { s.stats with framesDecoded := s.stats.framesDecoded + 1 } } [] :=
  feedRun_header (garbage := []) hdec fun j hj => absurd hj (Nat.not_lt_zero j)

/-- Settles O16: after the header the frame is skipping, and takes eight bytes. -/
theorem emptyFrameCostsTwentyBytes : Obligations.EmptyFrameCostsTwentyBytes := by
  intro s frameNumber filler hdec hlen
  have hheader := feedRun_headerBytes hdec 0 frameNumber
  obtain ⟨t, hrun, hframe, -, hends⟩ := feedRun_skipping (bytes := filler)
    (s := { s with
      dec := Decoder.inFrame 0 frameNumber
      stats := { s.stats with framesDecoded := s.stats.framesDecoded + 1 } })
    (Decoder.inFrame_midFrame 0 frameNumber) rfl hlen.le
  rw [feeds_append hheader.feeds, hrun.feeds, hframe, hends hlen, ← hdec]

/-! ## A whole frame -/

/-- The decoder `d` with the bytes `w` of an event in its buffer. -/
def Decoder.holding (d : Decoder) (w : List Byte) : Decoder :=
  { d with evtBuf := Vector.ofFn fun i => w.getD i.val 0, evtFill := BitVec.ofNat 4 w.length }

namespace Decoder

theorem holding_evtBuf (d : Decoder) (w : List Byte) {i : Nat} (hi : i < 8) :
    (d.holding w).evtBuf[i] = w.getD i 0 := Vector.getElem_ofFn ..

theorem holding_nil {d : Decoder} (hbuf : d.evtBuf = cleared.evtBuf) (hfill : d.evtFill = 0) : d.holding [] = d := by
  have hnil : (d.holding []).evtBuf = d.evtBuf := by rw [hbuf]; rfl
  calc d.holding [] = { d with evtBuf := (d.holding []).evtBuf, evtFill := 0 } := rfl
    _ = d := by rw [hnil, ← hfill]

theorem takeEventByte_holding {d : Decoder} {w : List Byte} (hw : w.length ≤ 7) (b : Byte) :
    (d.holding w).takeEventByte b = d.holding (w ++ [b]) := by
  have hnat : (d.holding w).evtFill.toNat = w.length := by
    rw [holding, BitVec.toNat_ofNat]
    omega
  have hbuf : ((d.holding w).takeEventByte b).evtBuf = (d.holding (w ++ [b])).evtBuf := by
    ext1 i hi
    have htake := takeEventByte_buf (d.holding w) b ⟨i, hi⟩
    rw [hnat] at htake
    rw [holding_evtBuf _ _ hi, getD_append_single, ← holding_evtBuf d w hi]
    exact htake
  have hfill : ((d.holding w).takeEventByte b).evtFill = (d.holding (w ++ [b])).evtFill := by
    simp [takeEventByte, holding, BitVec.ofNat_add]
  calc (d.holding w).takeEventByte b
      = { d.holding (w ++ [b]) with
          evtBuf := ((d.holding w).takeEventByte b).evtBuf
          evtFill := ((d.holding w).takeEventByte b).evtFill } := rfl
    _ = d.holding (w ++ [b]) := by rw [hbuf, hfill]

end Decoder

/-- The bytes of an event but its last only fill the buffer. -/
theorem feedRun_holding {bytes w : List Byte} {d : Decoder} {s : State} (hdec : s.dec = d.holding w)
    (hs : d.stage = .readingEvents) (hlen : w.length + bytes.length ≤ 7) :
    FeedRun bytes s { s with dec := d.holding (w ++ bytes) } [] := by
  induction bytes generalizing w s with
  | nil =>
    rw [List.append_nil, ← hdec]
    exact .nil s
  | cons b bytes ih =>
    rw [List.length_cons] at hlen
    have hfill : s.dec.evtFill ≠ 7 := fun h => by
      have hnat := congrArg BitVec.toNat h
      rw [hdec, Decoder.holding, BitVec.toNat_ofNat] at hnat
      change w.length % 16 = 7 at hnat
      omega
    have hstep : FeedStep b s { s with dec := d.holding (w ++ [b]) } [] := by
      rw [← Decoder.takeEventByte_holding (by omega), ← hdec]
      exact .eventByte (by rw [hdec]; exact hs) hfill
    have hrest := ih (w := w ++ [b]) (s := { s with dec := d.holding (w ++ [b]) }) rfl (by simp; omega)
    rw [List.append_assoc, List.singleton_append] at hrest
    exact .cons hstep hrest

/-- A decoder in a frame that is not skipping, before the first byte of an event. -/
structure Decoder.BeforeEvent (d : Decoder) : Prop where
  stage : d.stage = .readingEvents
  evtFill : d.evtFill = 0
  evtBuf : d.evtBuf = Decoder.cleared.evtBuf
  skippingFrame : d.skippingFrame = false

/-- The bytes of an event of chip 0 forward it. -/
theorem feedRun_event {s : State} (hd : s.dec.BeforeEvent) (address value pad : Byte) (delay : Word) :
    FeedRun (eventBytes (encodeEvent 0 address value pad delay)) s
      { s with
        dec := s.dec.eventEnd false
        stats := { s.stats with writesForwarded := s.stats.writesForwarded + 1 }
        queue := s.queue.push (eventOf address value delay) } [eventOf address value delay] := by
  let held : List Byte := [0, address, value, pad] ++ (wordBytes delay).take 3
  have hfirst : FeedRun held s { s with dec := s.dec.holding held } [] :=
    feedRun_holding (w := []) (Decoder.holding_nil hd.evtBuf hd.evtFill).symm hd.stage (le_refl 7)
  have hlast := FeedStep.write (b := delay.extractLsb' 24 8) (s := { s with dec := s.dec.holding held })
    hd.stage rfl hd.skippingFrame (by rw [Decoder.holding_evtBuf _ _ (by omega)]; rfl) (eventOf address value delay)
    (by
      simp only [Decoder.holding_evtBuf]
      exact congrArg (eventOf address value) (le32_wordBytes delay).symm)
  rw [eventBytes_encodeEvent]
  exact hfirst.append (.single hlast)

/-- The event a frame's item forwards. -/
def forwardedEvent (e : Byte × Byte × Byte × Word) : RegisterWriteEvent := eventOf e.1 e.2.1 e.2.2.2

/-- The bytes of a frame's item of chip 0. -/
def itemBytes (e : Byte × Byte × Byte × Word) : List Byte :=
  eventBytes (encodeEvent 0 e.1 e.2.1 e.2.2.1 e.2.2.2)

/-- The events still to come in a frame, in order: each is forwarded, and the last ends the frame. -/
theorem feedRun_events {events : List (Byte × Byte × Byte × Word)} {s : State} (hd : s.dec.BeforeEvent)
    (hne : events ≠ []) (hcount : s.dec.eventsRead.toNat + events.length = s.dec.expectedEvents.toNat) :
    FeedRun (events.flatMap itemBytes) s
      { s with
        dec := Decoder.cleared
        stats := { s.stats with
          writesForwarded := s.stats.writesForwarded + BitVec.ofNat 32 events.length }
        queue := (events.map forwardedEvent).foldl Queue.push s.queue } (events.map forwardedEvent) := by
  induction events generalizing s with
  | nil => exact absurd rfl hne
  | cons e events ih =>
    have hfirst := feedRun_event hd e.1 e.2.1 e.2.2.1 e.2.2.2
    have hbound := s.dec.expectedEvents.isLt
    rw [List.length_cons] at hcount
    have hread : (s.dec.eventsRead + 1).toNat = s.dec.eventsRead.toNat + 1 := by bv_omega
    by_cases hnil : events = []
    · subst hnil
      rw [Decoder.eventEnd_of_last (by rw [hread]; simp at hcount; omega)] at hfirst
      rw [List.flatMap_singleton]
      exact hfirst
    · have hpos := List.length_pos_iff.2 hnil
      rw [Decoder.eventEnd_of_more (by omega)] at hfirst
      have hrest := ih (s := { s with
          dec := { s.dec with
            evtBuf := Decoder.cleared.evtBuf, evtFill := 0, eventsRead := s.dec.eventsRead + 1,
            skippingFrame := false }
          stats := { s.stats with writesForwarded := s.stats.writesForwarded + 1 }
          queue := s.queue.push (forwardedEvent e) }) ⟨hd.stage, rfl, rfl, rfl⟩ hnil
        (by rw [← hcount, hread]; omega)
      have hsum : s.stats.writesForwarded + BitVec.ofNat 32 (events.length + 1) =
          s.stats.writesForwarded + 1 + BitVec.ofNat 32 events.length := by
        rw [Nat.add_comm, BitVec.ofNat_add, ← BitVec.add_assoc]
        rfl
      rw [List.flatMap_cons, List.length_cons, hsum]
      exact hfirst.append hrest

/-- A whole frame of one or more events of chip 0. -/
theorem feedRun_frame {s : State} (hdec : s.dec = Decoder.cleared) (frameNumber : Word)
    {events : List (Byte × Byte × Byte × Word)} (hpos : 0 < events.length) (hlt : events.length < 2 ^ 32) :
    FeedRun
      (assemble s.magic (frame frameNumber (events.map fun e => StreamItem.evt 0 e.1 e.2.1 e.2.2.1 e.2.2.2))) s
      { s with
        stats := { s.stats with
          framesDecoded := s.stats.framesDecoded + 1
          writesForwarded := s.stats.writesForwarded + BitVec.ofNat 32 events.length }
        queue := (events.map forwardedEvent).foldl Queue.push s.queue } (events.map forwardedEvent) := by
  have hcount : (BitVec.ofNat 32 events.length).toNat = events.length := by
    rw [BitVec.toNat_ofNat, Nat.mod_eq_of_lt hlt]
  have hnonzero : BitVec.ofNat 32 events.length ≠ 0 := fun h => by
    rw [h] at hcount
    exact hpos.ne hcount
  have hheader := feedRun_headerBytes hdec (BitVec.ofNat 32 events.length) frameNumber
  have hevents := feedRun_events (events := events)
    (s := { s with
      dec := Decoder.inFrame (BitVec.ofNat 32 events.length) frameNumber
      stats := { s.stats with framesDecoded := s.stats.framesDecoded + 1 } })
    ⟨rfl, rfl, rfl, decide_eq_false hnonzero⟩ (List.length_pos_iff.1 hpos)
    ((Nat.zero_add _).trans hcount.symm)
  have hbytes :
      assemble s.magic (frame frameNumber (events.map fun e => StreamItem.evt 0 e.1 e.2.1 e.2.2.1 e.2.2.2)) =
        headerBytes (encodeHeader s.magic (BitVec.ofNat 32 events.length) frameNumber) ++
          events.flatMap itemBytes := by
    rw [assemble, frame, List.flatMap_cons, List.flatMap_map, List.length_map]
    rfl
  rw [hbytes]
  have hrun := hheader.append hevents
  rw [← hdec] at hrun
  exact hrun

/-- Settles O17: the run of a whole frame. -/
theorem wholeFrameForwardsItsEventsInOrder : Obligations.WholeFrameForwardsItsEventsInOrder :=
  fun _ frameNumber _ hdec hpos hlt => (feedRun_frame hdec frameNumber hpos hlt).feeds

/-! ## What decoding depends on -/

/-- States with the same decoder, Stats and magic word. -/
structure SameDecoding (s s' : State) : Prop where
  dec : s.dec = s'.dec
  stats : s.stats = s'.stats
  magic : s.magic = s'.magic

theorem SameDecoding.refl (s : State) : SameDecoding s s := ⟨rfl, rfl, rfl⟩

/-- FEED takes the same case in states with the same decoder, and leaves such states. -/
theorem FeedStep.sameDecoding {b : Byte} {s s' t : State} {evs : List RegisterWriteEvent} (h : FeedStep b s t evs)
    (hsame : SameDecoding s s') : ∃ t', FeedStep b s' t' evs ∧ SameDecoding t t' := by
  obtain ⟨dec, stats, queue, magic, arb, arbCount, ports, applyLog⟩ := s
  obtain ⟨dec', stats', queue', magic', arb', arbCount', ports', applyLog'⟩ := s'
  obtain ⟨rfl, rfl, rfl⟩ : dec = dec' ∧ stats = stats' ∧ magic = magic' := ⟨hsame.dec, hsame.stats, hsame.magic⟩
  cases h with
  | headerByte hs hf => exact ⟨_, .headerByte hs hf, rfl, rfl, rfl⟩
  | accept hs hf hm => exact ⟨_, .accept hs hf hm, rfl, rfl, rfl⟩
  | slide hs hf hm => exact ⟨_, .slide hs hf hm, rfl, rfl, rfl⟩
  | eventByte hs hf => exact ⟨_, .eventByte hs hf, rfl, rfl, rfl⟩
  | skip hs hf hk => exact ⟨_, .skip hs hf hk, rfl, rfl, rfl⟩
  | write hs hf hk hc ev hev => 
    exact ⟨_, .write (s := ⟨dec, stats, queue', magic, arb', arbCount', ports', applyLog'⟩) hs hf hk hc ev hev,
      rfl, rfl, rfl⟩
  | unsupported hs hf hk hc => exact ⟨_, .unsupported hs hf hk hc, rfl, rfl, rfl⟩

/-- The operations the two contexts may put between the bytes: they leave the decoder alone. -/
inductive Interleaved : Instr → Prop where
  | feed (b : Byte) : Interleaved (.feed b)
  | enq (a v : Byte) (d : Word) : Interleaved (.enq a v d)
  | qclear : Interleaved .qclear
  | apply (n : Word) : Interleaved (.apply n)

/-- What is decoded in any interleaving is what the bytes alone decode to, from any state with the same decoder. -/
theorem execAll_sameDecoding {ops : List Instr} (hops : ∀ i ∈ ops, Interleaved i) {s s' : State}
    (hsame : SameDecoding s s') :
    ∃ t t', execAll ops s = .next t ∧ FeedRun (streamOf ops) s' t' (decodedByAll ops s) ∧ SameDecoding t t' := by
  induction ops generalizing s s' with
  | nil => exact ⟨s, s', rfl, .nil s', hsame⟩
  | cons i ops ih =>
    have hrest := fun j hj => hops j (List.mem_cons_of_mem i hj)
    obtain ⟨u, hu⟩ := exec_total i s
    rw [execAll_cons hu, decodedByAll_cons hu]
    cases hops i List.mem_cons_self with
    | feed b =>
      obtain ⟨evs, hstep⟩ := FeedStep.of_exec hu
      obtain ⟨u', hstep', hsame'⟩ := hstep.sameDecoding hsame
      obtain ⟨t, t', ht, hrun, hend⟩ := ih hrest hsame'
      have hevs : decodedBy (.feed b) s = evs := hstep.pushedBy
      rw [hevs]
      exact ⟨t, t', ht, .cons hstep' hrun, hend⟩
    | enq a v d => cases hu; exact ih hrest ⟨hsame.dec, hsame.stats, hsame.magic⟩
    | qclear => cases hu; exact ih hrest ⟨hsame.dec, hsame.stats, hsame.magic⟩
    | apply n => cases hu; exact ih hrest ⟨hsame.dec, hsame.stats, hsame.magic⟩

/-- A run of FEEDs exists for all bytes, from every state. -/
theorem FeedRun.total (bytes : List Byte) (s : State) : ∃ t evs, FeedRun bytes s t evs := by
  induction bytes generalizing s with
  | nil => exact ⟨s, [], .nil s⟩
  | cons b bytes ih =>
    obtain ⟨u, evs, hu⟩ := FeedStep.total b s
    obtain ⟨t, evs', ht⟩ := ih u
    exact ⟨t, evs ++ evs', .cons hu ht⟩

theorem FeedRun.sameDecoding {bytes : List Byte} {s s' t : State} {evs : List RegisterWriteEvent}
    (h : FeedRun bytes s t evs) (hsame : SameDecoding s s') : ∃ t', FeedRun bytes s' t' evs ∧ SameDecoding t t' := by
  induction h generalizing s' with
  | nil s => exact ⟨s', .nil s', hsame⟩
  | cons first rest ih =>
    obtain ⟨u', hfirst, hu⟩ := first.sameDecoding hsame
    obtain ⟨t', hrest, ht⟩ := ih hu
    exact ⟨t', .cons hfirst hrest, ht⟩

/-- Settles O18: both runs take the same cases. -/
theorem decodingIsIndependentOfTheQueue : Obligations.DecodingIsIndependentOfTheQueue := by
  intro s s' bytes hdec hstats hmagic
  obtain ⟨t, evs, hrun⟩ := FeedRun.total bytes s
  obtain ⟨t', hrun', hsame⟩ := hrun.sameDecoding ⟨hdec, hstats, hmagic⟩
  exact ⟨t, t', hrun.feeds, hrun'.feeds, hsame.dec, hsame.stats, by rw [hrun.pushedByAll, hrun'.pushedByAll]⟩

theorem interleaved_of_mem {ops : List Instr}
    (hops : ∀ i ∈ ops, (∃ b, i = .feed b) ∨ (∃ a v d, i = .enq a v d) ∨ i = .qclear ∨ ∃ n, i = .apply n) :
    ∀ i ∈ ops, Interleaved i := by
  intro i hi
  obtain ⟨b, rfl⟩ | ⟨a, v, d, rfl⟩ | rfl | ⟨n, rfl⟩ := hops i hi
  · exact .feed b
  · exact .enq a v d
  · exact .qclear
  · exact .apply n

/-- Settles O19: an interleaving decodes as its bytes alone, and for the bytes of a whole frame that is known. -/
theorem chunkingDoesNotMatter : Obligations.ChunkingDoesNotMatter := by
  refine ⟨fun ops s hops => ?_, fun ops s frameNumber events hops hdec hpos hlt hstream => ?_⟩
  · obtain ⟨t, u, ht, hrun, hsame⟩ := execAll_sameDecoding (interleaved_of_mem hops) (.refl s)
    exact ⟨t, u, ht, hrun.feeds, hsame.dec, hsame.stats, hrun.pushedByAll.symm⟩
  · obtain ⟨t, u, ht, hrun, hsame⟩ := execAll_sameDecoding (interleaved_of_mem hops) (.refl s)
    have hframe := feedRun_frame hdec frameNumber hpos hlt
    rw [hstream] at hrun
    obtain rfl : u = _ := Host.Outcome.next.inj (hrun.feeds.symm.trans hframe.feeds)
    exact ⟨t, ht, hsame.dec.trans hdec, hsame.stats, hrun.pushedByAll.symm.trans hframe.pushedByAll⟩

/-! ## The wire rows, and FrameReset -/

/-- Settles O21: FrameReset. -/
theorem decoderResetKeepsStatsAndQueue : Obligations.DecoderResetKeepsStatsAndQueue := fun s =>
  ⟨s.resetFrame, rfl, rfl, rfl, rfl⟩

theorem Decoder.takeEvent_countAndCheck (d : Decoder) (skipping : Bool) :
    ({ d.takeEvent with skippingFrame := skipping } : Decoder).countAndCheck = d.eventEnd skipping := by
  rw [countAndCheck_eq]
  rfl

/-- Settles O22: each row is its operations; the last three end the event. -/
theorem wireRowsComplete : Obligations.WireRowsComplete := by
  intro s word eventCount frameNumber chipId address value pad delay counted
  have hsame : s.dec.takeEvent.countAndCheck = s.dec.eventEnd s.dec.skippingFrame :=
    s.dec.takeEvent_countAndCheck s.dec.skippingFrame
  refine ⟨rfl, ⟨s.slideWindow, rfl, rfl, fun i => Decoder.slide_hdrBuf s.dec i.isLt, rfl, rfl⟩,
    ⟨_, rfl, ?_⟩, ?_, ?_⟩
  · exact congrArg (fun d => Host.Outcome.next { s with
      dec := d
      stats := { s.stats with writesForwarded := s.stats.writesForwarded + 1 }
      queue := s.queue.push (eventOf address value delay) }) hsame
  · exact congrArg (fun d => Host.Outcome.next { s with
      dec := d
      stats := { s.stats with unsupportedChip := s.stats.unsupportedChip + 1 } })
      (s.dec.takeEvent_countAndCheck true)
  · exact congrArg (fun d => Host.Outcome.next { s with dec := d }) hsame

/-! ## Conditions -/

/-- X5, as one comparison (R110). -/
theorem absorbedByCheck_eq (d : Decoder) :
    absorbedByCheck d = if d.expectedEvents.toNat < (d.eventsRead + 1).toNat then [.eventOverrun] else [] := by
  have hc : d.countEvent.frameComplete = true ↔ (d.eventsRead + 1).toNat = d.expectedEvents.toNat := by
    rw [BitVec.toNat_inj]
    exact beq_iff_eq
  have ho : d.countEvent.overrun = true ↔ d.expectedEvents.toNat < (d.eventsRead + 1).toNat := decide_eq_true_iff
  simp only [absorbedByCheck, hc, ho]
  split
  · rw [if_neg (by omega)]
  · rfl

/-- Settles O44: a window and an event absorb by their kind; and in a state that meets the invariant only the filler of
an empty frame is counted beyond the declared number. -/
theorem feedAbsorbsAtMostOneCondition : Obligations.FeedAbsorbsAtMostOneCondition := by
  intro b s hd
  cases hs : s.dec.stage with
  | seekingHeader =>
    by_cases hf : s.dec.hdrFill = 11
    · rw [absorbedBy_window hs hf, absorbedAtAccept]
      split
      · split <;> simp
      · simp
    · have hnone : absorbedBy (.feed b) s = [] := absorbedByFeed_header_partial hs hf b
      simp [hnone]
  | readingEvents =>
    by_cases hf : s.dec.evtFill = 7#4
    · rw [absorbedBy_event hs hf, absorbedByCheck_eq]
      obtain hlt | ⟨hexp, hread, hk⟩ := (hd.reading hs).2
      · have hcheck : ¬ s.dec.expectedEvents.toNat < (s.dec.eventsRead + 1).toNat := by bv_omega
        have hexp : s.dec.expectedEvents ≠ 0#32 := fun h => by rw [h] at hlt; exact absurd hlt (Nat.not_lt_zero _)
        rw [if_neg hcheck, absorbedByPush]
        split
        · simp [hexp]
        · split
          · split <;> simp [hexp]
          · simp [hexp]
      · rw [if_pos hk, if_pos (by rw [hexp, hread]; decide)]
        simp [hexp, hf]
    · have hnone : absorbedBy (.feed b) s = [] := absorbedByFeed_event_partial hs hf b
      simp [hnone, hf]

end Sys2Proof.Machine
end
